-- ==== Sys2Proof/Word.lean ====
section
/-! DEFINITION. The word of the Intcode core is an exact signed integer, Lean's `Int` (spec R9, R33, R40): a memory cell, an
operand, a result, an address, `pc` and `rb` each hold one. Which integers are allowed is the parameter `IntModel` of
Config.lean. The word has no bits that any instruction reads; its fields are decimal digits. -/

namespace Sys2Proof

/-- `digit(w, k) = floor(w / 10^k) mod 10`, for a number that is not negative (R9). -/
def digit (n k : Nat) : Nat := n / 10 ^ k % 10

end Sys2Proof
end

