-- ==== Sys2Proof/Config.lean ====
section
/-! DEFINITION. The two parameters the spec leaves open (R5, R6): `INT_MODEL` and `INITIAL_SIGNAL`. The spec leaves no
value undefined, so this file holds no free value. -/

namespace Sys2Proof

/-- `INT_MODEL` (R5): the integer model of every memory cell, operand, result, address, `pc` and `rb`. -/
inductive IntModel where
  /-- `Unbounded`: exact mathematical integers with no limit; the default of the spec. -/
  | unbounded
  /-- `I64Checked`: signed 64-bit integers; a computed integer out of range raises `Overflow` (R107). -/
  | i64Checked
  deriving DecidableEq, Repr

namespace Config

/-- R5: "`Unbounded` ... This is the default of this spec". -/
def defaultIntModel : IntModel := .unbounded

/-- The least integer of `I64Checked` (R5): −2^63. -/
def i64Min : Int := -9223372036854775808

/-- The greatest integer of `I64Checked` (R5): 2^63 − 1. -/
def i64Max : Int := 9223372036854775807

/-- `INITIAL_SIGNAL` (R6): "the default of this spec is 0". `ringStart` takes the signal as an argument, and
`runAmplifierRing` takes this one where its host names none. -/
def initialSignal : Int := 0

end Config

end Sys2Proof
end

