-- ==== Sys2Proof/Syntax.lean ====
section
/-! DEFINITION. The syntax of the instruction set (spec 30_encoding.md): modes, opcodes, formats, the decoder's record and
the ten instructions, one constructor for each row of spec/opcode_table.json. -/

namespace Sys2Proof

/-- A parameter mode (R51, R55): digit 0, 1 or 2. -/
inductive Mode where
  | position
  | immediate
  | relative
  deriving DecidableEq, Repr

/-- The ten opcodes (R54, R64). -/
inductive Opcode where
  | add
  | mul
  | inp
  | out
  | jt
  | jf
  | lt
  | eq
  | arb
  | hlt
  deriving DecidableEq, Repr

/-- The five instruction formats (R62). -/
inductive Format where
  /-- read, read, write -/
  | RRW
  /-- write -/
  | W
  /-- read -/
  | R
  /-- read, read -/
  | RR
  /-- no parameter -/
  | N
  deriving DecidableEq, Repr

/-- What the decoder reads from an instruction word (R52, R63). The record's `format`, `nparams`, `width` and `wparam`
are functions of its opcode (R62, R64): see `Opcode.format` and its companions. -/
structure Decoded where
  op : Opcode
  m1 : Mode
  m2 : Mode
  m3 : Mode
  deriving DecidableEq, Repr

/-- One parameter of an instruction: its mode and its parameter word `raw[k]` (R58). -/
structure Param where
  mode : Mode
  raw  : Int
  deriving DecidableEq, Repr

/-- An instruction, with its parameter words. The mode digits of parameters an instruction does not take are kept, since
they are part of its word (R65, R69); no meaning reads them. -/
inductive Instr where
  /-- `ADD` (opcode 1, R75): read, read, write. -/
  | add (a b t : Param)
  /-- `MUL` (opcode 2, R76): read, read, write. -/
  | mul (a b t : Param)
  /-- `IN` (opcode 3, R77): write; two unused mode digits. -/
  | inp (t : Param) (u2 u3 : Mode)
  /-- `OUT` (opcode 4, R78): read; two unused mode digits. -/
  | out (a : Param) (u2 u3 : Mode)
  /-- `JT` (opcode 5, R79): condition, target; one unused mode digit. -/
  | jt (c d : Param) (u3 : Mode)
  /-- `JF` (opcode 6, R80): condition, target; one unused mode digit. -/
  | jf (c d : Param) (u3 : Mode)
  /-- `LT` (opcode 7, R81): read, read, write. -/
  | lt (a b t : Param)
  /-- `EQ` (opcode 8, R82): read, read, write. -/
  | eq (a b t : Param)
  /-- `ARB` (opcode 9, R83): read; two unused mode digits. -/
  | arb (a : Param) (u2 u3 : Mode)
  /-- `HLT` (opcode 99, R84): three unused mode digits. -/
  | hlt (u1 u2 u3 : Mode)
  deriving DecidableEq, Repr

/-- The three decode faults, each under its own name (R63, R68). -/
inductive DecodeFault where
  /-- R53, R54: a negative word, or an opcode that is not one of the ten. -/
  | illegalOpcode (word : Int)
  /-- R56, R57: a word of 100000 or more (no parameter named), or a mode digit of 3 to 9. -/
  | illegalMode (word : Int) (param : Option Nat)
  /-- R61: a write parameter whose mode digit is 1. -/
  | immediateWriteTarget (word : Int) (param : Nat)
  deriving DecidableEq, Repr

/-- Why a list of cells begins with no instruction. The machine never meets a list that ends too early: its memory has no
end (R33). -/
inductive DecodeReject where
  /-- The first cell is no legal instruction word (R68). -/
  | word (fault : DecodeFault)
  /-- The list ends before the instruction does. -/
  | truncated
  deriving DecidableEq, Repr

end Sys2Proof
end

