-- ==== Sys2Proof/WellFormed.lean ====
section
/-! DEFINITION. Which instructions are well formed: exactly those whose write target is not in immediate mode (spec R61,
R62). Every other choice of modes and parameter words is legal (R58, R65, R68). -/

namespace Sys2Proof

/-- A parameter that an instruction may write to: position or relative mode (R60, R61). -/
def Param.isWriteTarget (p : Param) : Bool :=
  match p.mode with
  | .position => true
  | .immediate => false
  | .relative => true

/-- The check R61 makes on an instruction; an instruction with no write target always passes. -/
def Instr.wellFormed : Instr → Bool
  | .add _ _ t => t.isWriteTarget
  | .mul _ _ t => t.isWriteTarget
  | .inp t _ _ => t.isWriteTarget
  | .out _ _ _ => true
  | .jt _ _ _ => true
  | .jf _ _ _ => true
  | .lt _ _ t => t.isWriteTarget
  | .eq _ _ t => t.isWriteTarget
  | .arb _ _ _ => true
  | .hlt _ _ _ => true

end Sys2Proof
end

