-- ==== Sys2Proof/Decode.lean ====
section
/-! DEFINITION. The decoder (spec 30_encoding.md, R50 to R70), total on every integer and every list of cells, and after it
the encoder. -/

namespace Sys2Proof

/-! ## The opcode map and the formats -/

/-- The opcode map (R64): the opcode that the number `w mod 100` stands for, or none (R54). -/
def Opcode.ofNat? : Nat → Option Opcode
  | 1 => some .add
  | 2 => some .mul
  | 3 => some .inp
  | 4 => some .out
  | 5 => some .jt
  | 6 => some .jf
  | 7 => some .lt
  | 8 => some .eq
  | 9 => some .arb
  | 99 => some .hlt
  | _ => none

/-- The number of an opcode (R64). -/
def Opcode.toNat : Opcode → Nat
  | .add => 1
  | .mul => 2
  | .inp => 3
  | .out => 4
  | .jt => 5
  | .jf => 6
  | .lt => 7
  | .eq => 8
  | .arb => 9
  | .hlt => 99

/-- The format of each opcode (R62, R64). -/
def Opcode.format : Opcode → Format
  | .add => .RRW
  | .mul => .RRW
  | .inp => .W
  | .out => .R
  | .jt => .RR
  | .jf => .RR
  | .lt => .RRW
  | .eq => .RRW
  | .arb => .R
  | .hlt => .N

/-- The parameter count `n` of a format (R62). -/
def Format.nparams : Format → Nat
  | .RRW => 3
  | .W => 1
  | .R => 1
  | .RR => 2
  | .N => 0

/-- The write parameter of a format, if it has one (R62). -/
def Format.wparam : Format → Option Nat
  | .RRW => some 3
  | .W => some 1
  | .R => none
  | .RR => none
  | .N => none

/-- `width = n + 1` (R62). -/
def Format.width (f : Format) : Nat := f.nparams + 1

/-- The parameter count of a decoded instruction (R63). -/
def Decoded.nparams (d : Decoded) : Nat := d.op.format.nparams

/-- The width of a decoded instruction in cells (R62, R63). -/
def Decoded.width (d : Decoded) : Nat := d.op.format.width

/-- The write parameter of a decoded instruction (R63). -/
def Decoded.wparam (d : Decoded) : Option Nat := d.op.format.wparam

/-- The mode of parameter `k`, for `k` from 1 to 3 (R51). -/
def Decoded.mode (d : Decoded) : Nat → Option Mode
  | 1 => some d.m1
  | 2 => some d.m2
  | 3 => some d.m3
  | _ => none

/-- The mode a digit stands for (R55); 3 to 9 stand for none (R56). -/
def Mode.ofDigit? : Nat → Option Mode
  | 0 => some .position
  | 1 => some .immediate
  | 2 => some .relative
  | _ => none

/-- The digit of a mode (R55). -/
def Mode.toDigit : Mode → Nat
  | .position => 0
  | .immediate => 1
  | .relative => 2

/-! ## The decoder -/

/-- The last check of R52 (R61): an immediate write target. -/
def checkWriteTarget (w : Int) (d : Decoded) : Except DecodeFault Decoded :=
  match d.wparam with
  | none => .ok d
  | some k => if d.mode k = some .immediate then .error (.immediateWriteTarget w k) else .ok d

/-- `decode(w)` of R52, with its checks in that order (R109, points 2 to 4). `mode[k]` is the digit at position
`k + 1` (R51). -/
def decodeWord (w : Int) : Except DecodeFault Decoded :=
  if w < 0 then .error (.illegalOpcode w) else
  match Opcode.ofNat? (w.toNat % 100) with
  | none => .error (.illegalOpcode w)
  | some op =>
    if 100000 ≤ w then .error (.illegalMode w none) else
    match Mode.ofDigit? (digit w.toNat 2) with
    | none => .error (.illegalMode w (some 1))
    | some m1 =>
      match Mode.ofDigit? (digit w.toNat 3) with
      | none => .error (.illegalMode w (some 2))
      | some m2 =>
        match Mode.ofDigit? (digit w.toNat 4) with
        | none => .error (.illegalMode w (some 3))
        | some m3 => checkWriteTarget w { op := op, m1 := m1, m2 := m2, m3 := m3 }

/-- The instruction a decoded word and its parameter words make (R58, R62). A parameter word the opcode does not take is
not looked at. -/
def Decoded.toInstr (d : Decoded) (r1 r2 r3 : Int) : Instr :=
  match d.op with
  | .add => .add ⟨d.m1, r1⟩ ⟨d.m2, r2⟩ ⟨d.m3, r3⟩
  | .mul => .mul ⟨d.m1, r1⟩ ⟨d.m2, r2⟩ ⟨d.m3, r3⟩
  | .inp => .inp ⟨d.m1, r1⟩ d.m2 d.m3
  | .out => .out ⟨d.m1, r1⟩ d.m2 d.m3
  | .jt => .jt ⟨d.m1, r1⟩ ⟨d.m2, r2⟩ d.m3
  | .jf => .jf ⟨d.m1, r1⟩ ⟨d.m2, r2⟩ d.m3
  | .lt => .lt ⟨d.m1, r1⟩ ⟨d.m2, r2⟩ ⟨d.m3, r3⟩
  | .eq => .eq ⟨d.m1, r1⟩ ⟨d.m2, r2⟩ ⟨d.m3, r3⟩
  | .arb => .arb ⟨d.m1, r1⟩ d.m2 d.m3
  | .hlt => .hlt d.m1 d.m2 d.m3

/-- Decodes the instruction a list of cells begins with, and gives the cells after it (R50, R67). -/
def decode : List Int → Except DecodeReject (Instr × List Int)
  | [] => .error .truncated
  | w :: rest =>
    match decodeWord w with
    | .error e => .error (.word e)
    | .ok d =>
      if rest.length < d.nparams then .error .truncated
      else .ok (d.toInstr (rest.getD 0 0) (rest.getD 1 0) (rest.getD 2 0), rest.drop d.nparams)

/-! ## The encoder -/

/-- `encode(op, m1, m2, m3)` of R69. -/
def encodeWord (d : Decoded) : Int :=
  ((d.op.toNat + 100 * d.m1.toDigit + 1000 * d.m2.toDigit + 10000 * d.m3.toDigit : Nat) : Int)

/-- What the decoder reads from an instruction's own word: its opcode and its three mode digits. -/
def Instr.decoded : Instr → Decoded
  | .add a b t => ⟨.add, a.mode, b.mode, t.mode⟩
  | .mul a b t => ⟨.mul, a.mode, b.mode, t.mode⟩
  | .inp t u2 u3 => ⟨.inp, t.mode, u2, u3⟩
  | .out a u2 u3 => ⟨.out, a.mode, u2, u3⟩
  | .jt c d u3 => ⟨.jt, c.mode, d.mode, u3⟩
  | .jf c d u3 => ⟨.jf, c.mode, d.mode, u3⟩
  | .lt a b t => ⟨.lt, a.mode, b.mode, t.mode⟩
  | .eq a b t => ⟨.eq, a.mode, b.mode, t.mode⟩
  | .arb a u2 u3 => ⟨.arb, a.mode, u2, u3⟩
  | .hlt u1 u2 u3 => ⟨.hlt, u1, u2, u3⟩

/-- The parameter words of an instruction, in order (R50, R62). -/
def Instr.paramWords : Instr → List Int
  | .add a b t => [a.raw, b.raw, t.raw]
  | .mul a b t => [a.raw, b.raw, t.raw]
  | .inp t _ _ => [t.raw]
  | .out a _ _ => [a.raw]
  | .jt c d _ => [c.raw, d.raw]
  | .jf c d _ => [c.raw, d.raw]
  | .lt a b t => [a.raw, b.raw, t.raw]
  | .eq a b t => [a.raw, b.raw, t.raw]
  | .arb a _ _ => [a.raw]
  | .hlt _ _ _ => []

/-- The width of an instruction in cells (R62). -/
def Instr.width (i : Instr) : Nat := i.decoded.width

/-- The cells of an instruction: its word (R69), then its parameter words (R50). -/
def encode (i : Instr) : List Int := encodeWord i.decoded :: i.paramWords

/-! ## The host's numbering of bits

DESIGN CHOICE (notes/assumptions/6.md; unsafe only for readers of this one function): the spec's words are integers and
have no bits (R9, R40). For the host's interface a cell is laid out as 64 bits in two's complement, the first cell in the
lowest bits. No step of the machine uses this layout. -/

/-- The integer that cell `k` of a bit layout `w` holds. -/
def cellOfBits (w k : Nat) : Int :=
  let c : Nat := w / 2 ^ (64 * k) % 2 ^ 64
  if c < 2 ^ 63 then (c : Int) else (c : Int) - 2 ^ 64

/-- The four cells of an instruction laid out as bits, the bits from `nbits` up being 0. -/
def cellsOfTableWord (nbits w : Nat) : List Int :=
  let v : Nat := w % 2 ^ nbits
  [cellOfBits v 0, cellOfBits v 1, cellOfBits v 2, cellOfBits v 3]

/-- The instruction the decoder reads from the bits `w` (the host's interface). -/
def decodeTableWord (nbits w : Nat) : Option Instr :=
  match decode (cellsOfTableWord nbits w) with
  | .ok (i, _) => some i
  | .error _ => none

end Sys2Proof
end

