-- ==== Sys2Proof/Machine/State.lean ====
section
/-! DEFINITION. The state of one machine instance (spec 10_state.md, R15 to R30), the reasons a run can end, and the state
after reset (R128, R129). All of it is plain data. -/

namespace Sys2Proof.Machine

/-- The memory `M` (R20, R33): the cells that do not hold what an unlisted address reads as, by rising address. The
spec's unit of memory is the integer cell and has no bytes (R40), so a cell holds an integer. -/
abbrev Memory := List (Nat × Int)

/-- What an address that is not listed reads as (R20, R34, R37): 0, the spec's own value. -/
def Memory.unlisted : Int := 0

/-- `status` (R24). -/
inductive Status where
  | running
  | awaitingInput
  | suspended
  | halted
  | faulted
  deriving DecidableEq, Repr

/-- The fatal faults of one machine with the value each records (R101, codes 1, 2, 4, 5, 6). `InputStarved` (code 3) is
recoverable, sets no record (R112) and is the status `awaitingInput`. -/
inductive FaultCause where
  /-- R102: a negative address was requested. -/
  | invalidAddress (address : Int)
  /-- R103: the opcode is not one of the ten. -/
  | illegalOpcode (word : Int)
  /-- R105: a write parameter in immediate mode. -/
  | immediateWriteTarget (word : Int) (param : Nat)
  /-- R106: a word of 100000 or more, or a mode digit of 3 to 9 (then the parameter's number). -/
  | illegalMode (word : Int) (param : Option Nat)
  /-- R107, under `I64Checked` only: a computed integer out of range. -/
  | overflow (value : Int)
  deriving DecidableEq, Repr

/-- The fault record `{code, name, pc, word, info}` (R28, R108). `code`, `name` and `info` are views of `cause`. -/
structure FaultRecord where
  cause : FaultCause
  pc    : Int
  word  : Option Int
  deriving DecidableEq, Repr

/-- The state of one machine instance (R10, R15 to R28), and `INT_MODEL` (R5), which no operation changes. -/
structure State where
  /-- `M` (R20). -/
  mem      : Memory
  /-- `pc`, the instruction pointer (R16). -/
  pc       : Int
  /-- `rb`, the relative base (R18). -/
  rb       : Int
  /-- `inq`, the input queue, head first (R21). -/
  inq      : List Int
  /-- `outbuf`, the output buffer, oldest first (R22). -/
  outbuf   : List Int
  /-- `halted` (R23). -/
  halted   : Bool
  /-- `status` (R24). -/
  status   : Status
  /-- `fault`, the fault record or none (R28). -/
  fault    : Option FaultRecord
  /-- `INT_MODEL` (R5), the parameter this machine was loaded under. -/
  intModel : IntModel
  deriving DecidableEq, Repr

/-- The failures of a run that are no state of one machine: the ring faults of R101 and R127. Raised by the ring's drive
loop alone (Machine/Ring.lean), as data in its verdict; `step` and `exec` never answer one, since the spec makes every
fault of one machine a state of that machine (R111). Each is safe: the run ends and says why. -/
inductive Fault where
  /-- R127: a fatal fault of one machine of the ring, returned unchanged with the machine's index. Safe. -/
  | machineFault (machine : Nat) (record : Option FaultRecord)
  /-- R101 code 16, R127: a round with no output and no halt. Safe. -/
  | deadlock (round : Nat)
  /-- R101 code 17, R126: the final machine never output. Safe. -/
  | noOutput
  deriving DecidableEq, Repr

/-- Operations the machine turns away and that change nothing. -/
inductive Refusal where
  /-- The instruction has no meaning in this model yet. No arm of `exec` answers it. Safe. -/
  | notModelled (mnemonic : String)
  /-- R87, under `I64Checked`: a program element out of range; no machine is created. Raised by `load`. Safe. -/
  | loadOutOfRange (value : Int)
  /-- R88, under `I64Checked`: a fed value out of range; `inq` is unchanged. Raised by `feed`. Safe. -/
  | feedOutOfRange (value : Int)
  /-- R101 code 18, R121: a ring with no phase settings. Raised by `ringStart`. Safe. -/
  | emptyRing
  deriving DecidableEq, Repr

/-- The state right after `load` of the empty program under an integer model (R87, R129). -/
def State.resetUnder (model : IntModel) : State where
  mem := []
  pc := 0
  rb := 0
  inq := []
  outbuf := []
  halted := false
  status := .running
  fault := none
  intModel := model

/-- The state right after reset (R128, R129), under the spec's default `INT_MODEL` (R5). -/
def State.reset : State := State.resetUnder Config.defaultIntModel

end Sys2Proof.Machine
end

