-- ==== Sys2Proof/Machine/Flags.lean ====
section
/-! DEFINITION. The core has no flags (spec R26). What stands in their place: the truth value a comparison writes to memory
(R81, R82) and the range check of `INT_MODEL` that raises `Overflow` (R5, R107). -/

namespace Sys2Proof.Machine

/-- Whether an integer is one of the model's (R5): every integer under `Unbounded`, −2^63 to 2^63−1 under
`I64Checked`. -/
def fits : IntModel → Int → Bool
  | .unbounded, _ => true
  | .i64Checked, v => decide (Config.i64Min ≤ v) && decide (v ≤ Config.i64Max)

/-- An integer the engine computed, or `Overflow` with that integer (R107). -/
def checked (model : IntModel) (v : Int) : Except FaultCause Int :=
  if fits model v then .ok v else .error (.overflow v)

/-- The integer a comparison writes: 1 for true, 0 for false (R81, R82). -/
def truthWord (b : Bool) : Int := if b then 1 else 0

end Sys2Proof.Machine
end

