-- ==== Sys2Proof/Machine/Ops.lean ====
section
/-! DEFINITION. The named operations over memory and registers: reading and writing a cell (spec R34 to R36), taking a fault
(R108, R111), ending an instruction, and the advance of `pc` (R66). The core has no return from a fault (R114), so none
stands beside it. -/

namespace Sys2Proof.Machine

/-! ## Memory in its canonical form -/

/-- The cell at an address (R34); an address that is not listed reads 0 (R37). -/
def Memory.read : Memory → Nat → Int
  | [], _ => Memory.unlisted
  | (b, x) :: m, a => if a = b then x else Memory.read m a

/-- Sets the cell at an address (R36). Writing what an unlisted address reads as removes the entry, so that equal
memories are equal lists. -/
def Memory.write : Memory → Nat → Int → Memory
  | [], a, v => if v = Memory.unlisted then [] else [(a, v)]
  | (b, x) :: m, a, v =>
    if a < b then (if v = Memory.unlisted then (b, x) :: m else (a, v) :: (b, x) :: m)
    else if a = b then (if v = Memory.unlisted then m else (a, v) :: m)
    else (b, x) :: Memory.write m a v

/-- Writes a list of values to the addresses from `a` up: how `load` places a program image (R20, R43). -/
def Memory.writeList (m : Memory) (a : Nat) : List Int → Memory
  | [] => m
  | v :: vs => Memory.writeList (Memory.write m a v) (a + 1) vs

/-- The canonical form from an address up: addresses strictly rising, and no entry that reads as an unlisted address
does. -/
def Memory.wfFrom (lo : Nat) : Memory → Bool
  | [] => true
  | (b, x) :: m => decide (lo ≤ b) && decide (x ≠ Memory.unlisted) && Memory.wfFrom (b + 1) m

/-- The canonical form of a memory. -/
def Memory.wf (m : Memory) : Bool := Memory.wfFrom 0 m

/-! ## The spec's memory primitives -/

/-- The check every access makes (R35): a negative address raises `InvalidAddress`, and no other address does. -/
def checkAddress (a : Int) : Except FaultCause Nat :=
  if a < 0 then .error (.invalidAddress a) else .ok a.toNat

/-- `MemRead(a, 1)` (R34). The state is unchanged. -/
def memRead (m : Memory) (a : Int) : Except FaultCause Int := do
  let n ← checkAddress a
  .ok (Memory.read m n)

/-- `MemWrite(a, 1, v)` (R36). -/
def memWrite (m : Memory) (a v : Int) : Except FaultCause Memory := do
  let n ← checkAddress a
  .ok (Memory.write m n v)

/-! ## Faults -/

/-- The code of a fatal fault of one machine (R101). -/
def FaultCause.code : FaultCause → Nat
  | .invalidAddress _ => 1
  | .illegalOpcode _ => 2
  | .immediateWriteTarget _ _ => 4
  | .illegalMode _ _ => 5
  | .overflow _ => 6

/-- The name of a fatal fault of one machine (R101). -/
def FaultCause.name : FaultCause → String
  | .invalidAddress _ => "InvalidAddress"
  | .illegalOpcode _ => "IllegalOpcode"
  | .immediateWriteTarget _ _ => "ImmediateWriteTarget"
  | .illegalMode _ _ => "IllegalMode"
  | .overflow _ => "Overflow"

/-- The value a fatal fault records (R101): the address, the word or the out-of-range value, and the parameter's number
where there is one. -/
def FaultCause.info : FaultCause → Int × Option Nat
  | .invalidAddress a => (a, none)
  | .illegalOpcode w => (w, none)
  | .immediateWriteTarget w k => (w, some k)
  | .illegalMode w k => (w, k)
  | .overflow v => (v, none)

/-- The code of the recoverable fault `InputStarved` (R101). -/
def inputStarvedCode : Nat := 3

/-- The field `code` of a fault record (R108). -/
def FaultRecord.code (r : FaultRecord) : Nat := r.cause.code

/-- The field `name` of a fault record (R108). -/
def FaultRecord.name (r : FaultRecord) : String := r.cause.name

/-- The field `info` of a fault record (R108). -/
def FaultRecord.info (r : FaultRecord) : Int × Option Nat := r.cause.info

/-- The code of a ring fault (R101); a machine's fault in a ring keeps its own code. -/
def Fault.code : Fault → Option Nat
  | .machineFault _ r => r.map FaultRecord.code
  | .deadlock _ => some 16
  | .noOutput => some 17

/-- The code of a refusal (R101); the spec numbers one refusal only. -/
def Refusal.code : Refusal → Option Nat
  | .emptyRing => some 18
  | _ => none

/-- The machine fault a decode fault raises (R63). -/
def decodeCause : DecodeFault → FaultCause
  | .illegalOpcode w => .illegalOpcode w
  | .illegalMode w k => .illegalMode w k
  | .immediateWriteTarget w k => .immediateWriteTarget w k

/-- `M[pc]`, the current instruction's word, or none where `pc` addresses no cell: the record's `word` (R108). -/
def State.currentWord (s : State) : Option Int :=
  if s.pc < 0 then none else some (Memory.read s.mem s.pc.toNat)

/-- TAKING A FATAL FAULT (R28, R108, R111): `status <- Faulted` and `fault <- {code, name, pc, word, info}`; nothing else
changes, so `pc` still addresses the faulting instruction. There is no vector, no saved register and no mode (R110). -/
def State.takeFault (s : State) (c : FaultCause) : State :=
  { s with status := .faulted, fault := some { cause := c, pc := s.pc, word := s.currentWord } }

/-- How an instruction ends: with its committed state, or, where one of its checks raised a fault, with that fault taken
in the state before it (R12, R91, R111). -/
def conclude (s : State) : Except FaultCause State → Host.Outcome State Fault Refusal
  | .ok t => .next t
  | .error c => .next (s.takeFault c)

/-- `pc + width` (R66), computed from the `pc` of the instruction's own fetch; `Overflow` where out of range (R107). -/
def advance (s : State) (width : Nat) : Except FaultCause Int :=
  checked s.intModel (s.pc + (width : Int))

/-! ## Fetching -/

/-- The instruction fetch (R90): `MemRead(pc, 1)`. -/
def fetchWord (s : State) : Except FaultCause Int := memRead s.mem s.pc

/-- Parameter word `k` of an instruction that takes `n` of them (R58): `MemRead(pc + k, 1)`, whose address may overflow
(R107). A word the instruction does not take is not read (R91 stage 3; 92_eei_decisions.md D30), and 0 stands in its
place, which no meaning looks at. -/
def fetchParam (s : State) (n k : Nat) : Except FaultCause Int :=
  if k ≤ n then do
    let a ← checked s.intModel (s.pc + (k : Int))
    memRead s.mem a
  else .ok 0

/-- Stages 1 to 3 of a step (R91): fetch the word, decode it, read the parameter words in order. -/
def fetchInstr (s : State) : Except FaultCause Instr := do
  let w ← fetchWord s
  match decodeWord w with
  | .error e => .error (decodeCause e)
  | .ok d =>
    let r1 ← fetchParam s d.nparams 1
    let r2 ← fetchParam s d.nparams 2
    let r3 ← fetchParam s d.nparams 3
    .ok (d.toInstr r1 r2 r3)

/-! ## Status -/

/-- A machine that no step may change again: halted or faulted (R25, R95, R96). -/
def State.stopped (s : State) : Bool :=
  match s.status with
  | .running => false
  | .awaitingInput => false
  | .suspended => false
  | .halted => true
  | .faulted => true

/-- The host starts a burst: `status <- Running` (R25, R93). -/
def State.resume (s : State) : State := { s with status := .running }

end Sys2Proof.Machine
end

