-- ==== Sys2Proof/Machine/Operands.lean ====
section
/-! DEFINITION. Every operand form: `ReadParam` and `WriteAddr` (spec R59, R60), and the two shapes that several instructions
share: two reads and a store (`RRW`), and a conditional jump (`RR`). -/

namespace Sys2Proof.Machine

/-- `ReadParam(k)` (R59): immediate gives the parameter word; position reads the cell it addresses; relative reads the
cell at `rb + raw[k]`, whose sum may overflow (R107). -/
def readParam (s : State) (p : Param) : Except FaultCause Int :=
  match p.mode with
  | .immediate => .ok p.raw
  | .position => memRead s.mem p.raw
  | .relative => do
    let a ← checked s.intModel (s.rb + p.raw)
    memRead s.mem a

/-- `WriteAddr(k)` (R60): the address parameter `k` names as a write target. An immediate target is caught by the decoder
(R61), so a running machine never meets it here. -/
def writeAddr (s : State) (k : Nat) (p : Param) : Except FaultCause Int :=
  match p.mode with
  | .immediate => .error (.immediateWriteTarget (Memory.read s.mem s.pc.toNat) k)
  | .position => do
    let _ ← checkAddress p.raw
    .ok p.raw
  | .relative => do
    let a ← checked s.intModel (s.rb + p.raw)
    let _ ← checkAddress a
    .ok a

/-- The shape `RRW` (R62, R91): read parameter 1, read parameter 2, resolve the target, compute, advance, then commit the
one write and `pc`. -/
def storeBinary (s : State) (a b t : Param) (f : Int → Int → Except FaultCause Int) : Except FaultCause State := do
  let x ← readParam s a
  let y ← readParam s b
  let addr ← writeAddr s 3 t
  let r ← f x y
  let p ← advance s Format.RRW.width
  let m ← memWrite s.mem addr r
  .ok { s with mem := m, pc := p }

/-- Where a jump goes (R66): to its target where it is taken, past the instruction where it is not. -/
def jumpTarget (s : State) (target : Int) (taken : Bool) : Except FaultCause Int :=
  if taken then .ok target else advance s Format.RR.width

/-- The shape `RR` (R79, R80): both parameters are always resolved; the jump loads `pc` with the second where the test of
the first holds, and otherwise `pc` advances past the instruction. -/
def jumpWhen (s : State) (c d : Param) (test : Int → Bool) : Except FaultCause State := do
  let x ← readParam s c
  let y ← readParam s d
  let p ← jumpTarget s y (test x)
  .ok { s with pc := p }

end Sys2Proof.Machine
end

