-- ==== Sys2Proof/Machine/Arith.lean ====
section
/-! DEFINITION. Arithmetic instructions (spec 40_arith.md, R74 to R76). -/

namespace Sys2Proof.Machine

/-- `ADD` (R75): the exact sum to the target; `Overflow` where it is out of range (R74). -/
def execAdd (a b t : Param) (s : State) : Host.Outcome State Fault Refusal :=
  conclude s (storeBinary s a b t fun x y => checked s.intModel (x + y))

/-- `MUL` (R76): the exact product to the target; `Overflow` where it is out of range (R74). -/
def execMul (a b t : Param) (s : State) : Host.Outcome State Fault Refusal :=
  conclude s (storeBinary s a b t fun x y => checked s.intModel (x * y))

end Sys2Proof.Machine
end

