-- ==== Sys2Proof/Machine/Compare.lean ====
section
/-! DEFINITION. Comparison instructions (spec 43_compare.md, R81, R82). -/

namespace Sys2Proof.Machine

/-- `LT` (R81): 1 to the target if parameter 1 is less than parameter 2 as signed integers, else 0. -/
def execLt (a b t : Param) (s : State) : Host.Outcome State Fault Refusal :=
  conclude s (storeBinary s a b t fun x y => .ok (truthWord (decide (x < y))))

/-- `EQ` (R82): 1 to the target if the parameters are equal, else 0. -/
def execEq (a b t : Param) (s : State) : Host.Outcome State Fault Refusal :=
  conclude s (storeBinary s a b t fun x y => .ok (truthWord (decide (x = y))))

end Sys2Proof.Machine
end

