-- ==== Sys2Proof/Machine/Halt.lean ====
section
/-! DEFINITION. Halt (spec 45_halt.md, R84). -/

namespace Sys2Proof.Machine

/-- `HLT` (R84): `halted <- true`, `status <- Halted`; `pc` keeps the address of the halt. No parameter is read and no
fault can be raised. -/
def execHlt (s : State) : Host.Outcome State Fault Refusal :=
  .next { s with halted := true, status := .halted }

end Sys2Proof.Machine
end

