-- ==== Sys2Proof/Machine/InOut.lean ====
section
/-! DEFINITION. Input and output instructions (spec 41_io.md, R77, R78). -/

namespace Sys2Proof.Machine

/-- The part of `IN` after its queue is found not empty (R77): store the head, drop it, advance. -/
def storeInput (s : State) (addr v : Int) (rest : List Int) : Except FaultCause State := do
  let p ← advance s Format.W.width
  let m ← memWrite s.mem addr v
  .ok { s with mem := m, pc := p, inq := rest }

/-- `IN` (R77): resolve the target; an empty queue starves the machine, which changes `status` alone (R112); otherwise the
head of the queue goes to the target. The target's fault comes before starvation, and starvation before the overflow of
`pc + 2` (R109, points 8, 9, 11). -/
def execIn (t : Param) (s : State) : Host.Outcome State Fault Refusal :=
  match writeAddr s 1 t with
  | .error c => .next (s.takeFault c)
  | .ok addr =>
    match s.inq with
    | [] => .next { s with status := .awaitingInput }
    | v :: rest => conclude s (storeInput s addr v rest)

/-- The effect of `OUT` (R78): append the value, advance, suspend. -/
def emitOutput (s : State) (a : Param) : Except FaultCause State := do
  let v ← readParam s a
  let p ← advance s Format.R.width
  .ok { s with outbuf := s.outbuf ++ [v], pc := p, status := .suspended }

/-- `OUT` (R78; 90_conflicts.md C1: `pc` advances past the output before the machine yields). -/
def execOut (a : Param) (s : State) : Host.Outcome State Fault Refusal :=
  conclude s (emitOutput s a)

end Sys2Proof.Machine
end

