-- ==== Sys2Proof/Machine/Jump.lean ====
section
/-! DEFINITION. Control transfer (spec 42_jumps.md, R79, R80; 90_conflicts.md C2: a taken jump loads `pc`). -/

namespace Sys2Proof.Machine

/-- `JT` (R79): jumps when the condition is not zero. A negative target is legal in the jump (R16). -/
def execJt (c d : Param) (s : State) : Host.Outcome State Fault Refusal :=
  conclude s (jumpWhen s c d fun x => decide (x ≠ 0))

/-- `JF` (R80): jumps when the condition is zero. -/
def execJf (c d : Param) (s : State) : Host.Outcome State Fault Refusal :=
  conclude s (jumpWhen s c d fun x => decide (x = 0))

end Sys2Proof.Machine
end

