-- ==== Sys2Proof/Machine/RelBase.lean ====
section
/-! DEFINITION. Relative-base adjustment (spec 44_relbase.md, R83). -/

namespace Sys2Proof.Machine

/-- The effect of `ARB` (R83): the operand is read at the old base, then added to it. -/
def adjustBase (s : State) (a : Param) : Except FaultCause State := do
  let v ← readParam s a
  let base ← checked s.intModel (s.rb + v)
  let p ← advance s Format.R.width
  .ok { s with rb := base, pc := p }

/-- `ARB` (R83). A negative new base is no fault (R18). -/
def execArb (a : Param) (s : State) : Host.Outcome State Fault Refusal :=
  conclude s (adjustBase s a)

end Sys2Proof.Machine
end

