-- ==== Sys2Proof/Machine/Dispatch.lean ====
section
/-! DEFINITION. Dispatch (spec R64, R89): one arm for each instruction. -/

namespace Sys2Proof.Machine

/-- The execute phase of each instruction (R89). -/
def exec (i : Instr) (s : State) : Host.Outcome State Fault Refusal :=
  match i with
  | .add a b t => Sys2Proof.Machine.execAdd a b t s
  | .mul a b t => Sys2Proof.Machine.execMul a b t s
  | .inp t _ _ => Sys2Proof.Machine.execIn t s
  | .out a _ _ => Sys2Proof.Machine.execOut a s
  | .jt c d _ => Sys2Proof.Machine.execJt c d s
  | .jf c d _ => Sys2Proof.Machine.execJf c d s
  | .lt a b t => Sys2Proof.Machine.execLt a b t s
  | .eq a b t => Sys2Proof.Machine.execEq a b t s
  | .arb a _ _ => Sys2Proof.Machine.execArb a s
  | .hlt _ _ _ => Sys2Proof.Machine.execHlt s

end Sys2Proof.Machine
end

