-- ==== Sys2Proof/Machine/Step.lean ====
section
/-! DEFINITION. One step of the machine (spec R89 to R92), and the host's way to place an instruction where the next step
fetches. -/

namespace Sys2Proof.Machine

/-- `step()` of R89: fetch, decode, read the parameter words, execute. A fault of the first three stages is taken in the
state before the step (R91, R111). -/
def runInstruction (s : State) : Host.Outcome State Fault Refusal :=
  match fetchInstr s with
  | .error c => .next (s.takeFault c)
  | .ok i => exec i s

/-- One step of a machine that its host keeps running. A halted or faulted machine takes no step and changes nothing (R25,
R95, R96). A suspended or starved machine goes on only when its host starts the next burst, so the step begins with that
event, `status <- Running` (R25, R93; DESIGN CHOICE, notes/assumptions/2.md, safe). -/
def step (s : State) : Host.Outcome State Fault Refusal :=
  if s.stopped then .next s else runInstruction s.resume

/-- `s` with the instruction laid out as the bits `w` (see `decodeTableWord`) stored at the cells from `pc` up, and made
ready to run it: a negative `pc`, which addresses no cell, becomes 0, and a halted or faulted machine becomes a running
one. This stands for a load from outside the machine (notes/assumptions/6.md); no operation of the machine does it. -/
def State.withFetchWord (s : State) (nbits w : Nat) : State :=
  let p : Nat := s.pc.toNat
  let base : State := { s with mem := Memory.writeList s.mem p (cellsOfTableWord nbits w), pc := (p : Int) }
  if s.stopped then { base with status := .running, halted := false, fault := none } else base

end Sys2Proof.Machine
end

