-- ==== Sys2Proof/Machine/Engine.lean ====
section
/-! DEFINITION. The execution engine's burst and the host interface (spec 50_engine.md, R85 to R100): `load`, `feed`,
`run_to_next_output`, `is_halted` and `peek`. -/

namespace Sys2Proof.Machine

/-- The result of a step, and of a burst (R92, R93). The value of an output is the last element of `outbuf` and a fault's
record is the machine's `fault` (R24, R94, R96); both are there in every state that meets `State.Inv` (Safety.lean). -/
inductive StepResult where
  /-- An instruction other than output or halt completed. -/
  | continued
  | output (value : Option Int)
  | halted
  | inputStarved
  | fault (record : Option FaultRecord)
  deriving DecidableEq, Repr

/-- The result of the step that left the machine in this state (R92): each status but `Running` stands for one of them
(R24, R25). -/
def report (t : State) : StepResult :=
  match t.status with
  | .running => .continued
  | .suspended => .output t.outbuf.getLast?
  | .halted => .halted
  | .awaitingInput => .inputStarved
  | .faulted => .fault t.fault

/-! ## The burst -/

/-- The loop of R93, given up after a number of steps: `none` says that the burst has not ended by then, which is no
verdict about it (R8, R99). -/
def burstLoop : Nat → State → Option (State × StepResult)
  | 0, _ => none
  | n + 1, s =>
    match step s with
    | .next t => if report t = .continued then burstLoop n t else some (t, report t)
    | .fault _ => none
    | .refused _ => none

/-- `run_to_next_output()` = `run_until_output_or_halt()` (R93, R95, R96; 90_conflicts.md C4), watched for a number of
steps. -/
def burst (n : Nat) (s : State) : Option (State × StepResult) :=
  match s.status with
  | .halted => some (s, .halted)
  | .faulted => some (s, .fault s.fault)
  | .running => burstLoop n s.resume
  | .suspended => burstLoop n s.resume
  | .awaitingInput => burstLoop n s.resume

/-- A burst that ends, with the machine and the result it ends in (R93). -/
def BurstEnds (s t : State) (r : StepResult) : Prop := ∃ n, burst n s = some (t, r)

/-- A burst that never ends, a hang (R99). -/
def BurstHangs (s : State) : Prop := ∀ n, burst n s = none

/-! ## Load, feed, is_halted, peek -/

/-- `load(program)` (R87) under an integer model: a new machine in its reset state with the program at 0 up. Under
`I64Checked` a program with an element out of range is refused, and no machine is created. -/
def load (model : IntModel) (program : List Int) : Except Refusal State :=
  match program.find? (fun v => !fits model v) with
  | some v => .error (.loadOutOfRange v)
  | none => .ok { State.resetUnder model with mem := Memory.writeList [] 0 program }

/-- `feed(values)` (R88): appends the values to `inq`, in any status. Under `I64Checked` a value out of range is
refused. -/
def feed (s : State) (values : List Int) : Except Refusal State :=
  match values.find? (fun v => !fits s.intModel v) with
  | some v => .error (.feedOutOfRange v)
  | none => .ok { s with inq := s.inq ++ values }

/-- The machine after the host calls `feed`: a refused feed leaves it as it was (R88). -/
def afterFeed (s : State) (values : List Int) : State :=
  match feed s values with
  | .ok t => t
  | .error _ => s

/-- `is_halted()` (R98). -/
def isHalted (s : State) : Bool := s.halted

/-- What `peek` can select (R97). -/
inductive Selector where
  | mem (a : Int)
  | pc
  | rb
  | inQ
  | outBuf
  | status
  | faultRecord
  deriving DecidableEq, Repr

/-- What `peek` returns (R97). -/
inductive Observation where
  | word (v : Int)
  | words (vs : List Int)
  | status (st : Status)
  | record (r : Option FaultRecord)
  deriving DecidableEq, Repr

/-- `peek(selector)` (R97): reads one element and changes nothing. A negative address is answered with `InvalidAddress`
and does not fault the machine. -/
def peek (s : State) : Selector → Except FaultCause Observation
  | .mem a => (memRead s.mem a).map .word
  | .pc => .ok (.word s.pc)
  | .rb => .ok (.word s.rb)
  | .inQ => .ok (.words s.inq)
  | .outBuf => .ok (.words s.outbuf)
  | .status => .ok (.status s.status)
  | .faultRecord => .ok (.record s.fault)

end Sys2Proof.Machine
end

