-- ==== Sys2Proof/Machine/Ring.lean ====
section
/-! DEFINITION. The amplifier ring (spec 60_exceptions.md, R121 to R127; R130): several machines, each feeding the next one's
input queue, driven round by round. One step of the ring is one step of one machine or one decision of the drive loop, so
that a ring that hangs is an infinite run and not a fault (R99, R125). -/

namespace Sys2Proof.Machine

/-- How a ring run ends (R123). -/
inductive RingVerdict where
  /-- R126: the last value the final machine output. -/
  | result (value : Int)
  | ringFault (f : Fault)
  deriving DecidableEq, Repr

/-- A ring run in progress (R121, R123). -/
structure Ring where
  /-- `m[0]` to `m[N−1]`. -/
  machines : List State
  /-- The loop variable `i`: the machine whose turn it is; `N` at the end of a round. -/
  turn     : Nat
  /-- `round`, from 1. -/
  round    : Nat
  /-- `progress`: a machine has output or halted in this round. -/
  progress : Bool
  /-- The result, once the loop has ended. -/
  verdict  : Option RingVerdict
  deriving DecidableEq, Repr

/-- One machine of the ring as constructed (R122): a load of its own, then its phase as first input. -/
def ringMachine (model : IntModel) (program : List Int) (phase : Int) : Except Refusal State := do
  let m ← load model program
  feed m [phase]

/-- The machines of a ring, one for each phase setting, in order (R121, R122). -/
def ringMachines (model : IntModel) (program : List Int) : List Int → Except Refusal (List State)
  | [] => .ok []
  | phase :: phases => do
    let m ← ringMachine model program phase
    let ms ← ringMachines model program phases
    .ok (m :: ms)

/-- Ring construction (R122, R130), at the start of its first round; `m[0]` also gets `INITIAL_SIGNAL` (R6). A ring with no
phase settings is refused (R121, R123). -/
def ringStart (model : IntModel) (program phases : List Int) (signal : Int) : Except Refusal Ring := do
  match (← ringMachines model program phases) with
  | [] => .error .emptyRing
  | m :: ms =>
    let m0 ← feed m [signal]
    .ok { machines := m0 :: ms, turn := 0, round := 1, progress := false, verdict := none }

/-- Puts a machine back at its place in the ring. -/
def Ring.place (r : Ring) (m : State) : Ring := { r with machines := r.machines.set r.turn m }

/-- Output routing (R124): the value goes to the input queue of machine `(i + 1) mod N`, halted or not. -/
def Ring.route (r : Ring) (values : List Int) : Ring :=
  { r with machines := r.machines.modify ((r.turn + 1) % r.machines.length) (fun m => afterFeed m values) }

/-- The turn passes to the next machine. -/
def Ring.pass (r : Ring) (progress : Bool) : Ring :=
  { r with turn := r.turn + 1, progress := r.progress || progress }

/-- The `case r of` of the drive loop (R123), after the machine whose turn it is stepped to `m`. -/
def Ring.afterStep (r : Ring) (m : State) : StepResult → Ring
  | .continued => r.place m
  | .output v => ((r.place m).route v.toList).pass true
  | .halted => (r.place m).pass true
  | .inputStarved => (r.place m).pass false
  | .fault rec => { r.place m with verdict := some (.ringFault (.machineFault r.turn rec)) }

/-- The ring result (R126): the last element of the final machine's `outbuf`, or `NoOutput`. -/
def Ring.outcome (r : Ring) : RingVerdict :=
  match r.machines.getLast?.bind (fun m => m.outbuf.getLast?) with
  | some v => .result v
  | none => .ringFault .noOutput

/-- The end of a round (R123, R125, R127): the ring ends when every machine has halted; a round without progress is
`Deadlock`; otherwise the next round begins. -/
def Ring.endRound (r : Ring) : Ring :=
  if r.machines.all isHalted then { r with verdict := some r.outcome }
  else if r.progress then { r with turn := 0, round := r.round + 1, progress := false }
  else { r with verdict := some (.ringFault (.deadlock r.round)) }

/-- One step of the drive loop (R123): a halted machine is passed over and never resumed; any other machine whose turn it
is takes one step of its burst. -/
def Ring.step (r : Ring) : Ring :=
  match r.verdict with
  | some _ => r
  | none =>
    match r.machines[r.turn]? with
    | none => r.endRound
    | some m =>
      if isHalted m then r.pass false
      else
        match Sys2Proof.Machine.step m with
        | .next t => r.afterStep t (report t)
        | .fault _ => r
        | .refused _ => r

/-- A number of steps of the drive loop. -/
def Ring.run : Nat → Ring → Ring
  | 0, r => r
  | n + 1, r => Ring.run n r.step

/-- `run_amplifier_ring(program, phase_settings)` (R122, R123), watched for a number of steps of the drive loop: `none`
inside says that it has not ended by then. -/
def runAmplifierRing (model : IntModel) (program phases : List Int) (n : Nat) (signal : Int := Config.initialSignal) :
    Except Refusal (Option RingVerdict) := do
  let r ← ringStart model program phases signal
  .ok (r.run n).verdict

end Sys2Proof.Machine
end

