-- ==== Sys2Proof/Safety.lean ====
section
/-! DEFINITION. The words claims are stated in: when a parameter resolves and to what (spec R59, R60), which fault it raises
otherwise (R109), and the invariants of one machine and of a ring. They are written from the spec's rules, apart from the
functions the machine runs. -/

namespace Sys2Proof.Machine

/-! ## Integers -/

/-- The integers of a model (R5): all of them under `Unbounded`, −2^63 to 2^63−1 under `I64Checked`. -/
def InRange (model : IntModel) (v : Int) : Prop :=
  model = .unbounded ∨ (-9223372036854775808 ≤ v ∧ v ≤ 9223372036854775807)

/-! ## Parameters -/

/-- `M[a]` for an address (R20). -/
def State.cell (s : State) (a : Int) : Int := Memory.read s.mem a.toNat

/-- The effective address of a parameter that is not immediate (R39): the parameter word, or `rb` plus it. -/
def State.address (s : State) (p : Param) : Int :=
  match p.mode with
  | .position => p.raw
  | .immediate => p.raw
  | .relative => s.rb + p.raw

/-- The value of a read parameter (R59). -/
def State.value (s : State) (p : Param) : Int :=
  match p.mode with
  | .position => s.cell p.raw
  | .immediate => p.raw
  | .relative => s.cell (s.rb + p.raw)

/-- The effective address is one of the model's integers and not negative (R35, R107). -/
def State.Reachable (s : State) (p : Param) : Prop :=
  match p.mode with
  | .position => 0 ≤ p.raw
  | .immediate => True
  | .relative => InRange s.intModel (s.rb + p.raw) ∧ 0 ≤ s.rb + p.raw

/-- A read parameter that resolves (R59). -/
def State.Readable (s : State) (p : Param) : Prop := s.Reachable p

/-- A write target that resolves (R60): not immediate, at a legal address. -/
def State.Writable (s : State) (p : Param) : Prop := p.mode ≠ .immediate ∧ s.Reachable p

/-- The fault an effective address raises: the overflow of the relative sum, then a negative address (R109, points 6 to
8). An immediate read parameter raises none; an immediate write target is the decoder's fault (R61). -/
def State.AddressFault (s : State) (p : Param) (c : FaultCause) : Prop :=
  match p.mode with
  | .position => p.raw < 0 ∧ c = .invalidAddress p.raw
  | .immediate => False
  | .relative =>
    (¬InRange s.intModel (s.rb + p.raw) ∧ c = .overflow (s.rb + p.raw)) ∨
    (InRange s.intModel (s.rb + p.raw) ∧ s.rb + p.raw < 0 ∧ c = .invalidAddress (s.rb + p.raw))

/-! ## What an instruction names -/

/-- The parameter an instruction writes to, if it has one (R62). -/
def writeTarget : Instr → Option Param
  | .add _ _ t => some t
  | .mul _ _ t => some t
  | .inp t _ _ => some t
  | .out _ _ _ => none
  | .jt _ _ _ => none
  | .jf _ _ _ => none
  | .lt _ _ t => some t
  | .eq _ _ t => some t
  | .arb _ _ _ => none
  | .hlt _ _ _ => none

/-- The numbers that are opcodes (R54). -/
def opcodeNumbers : List Nat := [1, 2, 3, 4, 5, 6, 7, 8, 9, 99]

/-- The write parameter of an opcode's number (R62): 3 for add, multiply, less-than and equals, 1 for input. -/
def writeParamOfNumber (n : Nat) : Option Nat :=
  if n ∈ [1, 2, 7, 8] then some 3 else if n = 3 then some 1 else none

/-- The cells of a memory from an address up. -/
def cellsFrom (m : Memory) (a : Nat) : Nat → List Int
  | 0 => []
  | n + 1 => Memory.read m a :: cellsFrom m (a + 1) n

/-! ## The invariant of one machine -/

/-- Every cell of a memory that is listed, and its address, is one of the model's integers (R5). -/
def Memory.allFit (model : IntModel) : Memory → Bool
  | [] => true
  | (a, v) :: m => fits model (a : Int) && fits model v && Memory.allFit model m

/-- Every integer the machine holds is one of its model's (R5): "The integer model of every memory cell, operand, result,
address, program counter and relative-base value". -/
def State.allFit (s : State) : Bool :=
  Memory.allFit s.intModel s.mem && fits s.intModel s.pc && fits s.intModel s.rb &&
    s.inq.all (fits s.intModel) && s.outbuf.all (fits s.intModel)

/-- What holds of a machine from `load` on, whatever it runs and whatever its host does. -/
structure State.Inv (s : State) : Prop where
  /-- Memory is in its canonical form. -/
  canonical : Memory.wf s.mem = true
  /-- R23: "At all times `halted = (status == Halted)`". -/
  haltedIff : s.halted = true ↔ s.status = .halted
  /-- R28, R111: there is a fault record exactly when the machine is `Faulted`. -/
  faultIff : s.fault.isSome = true ↔ s.status = .faulted
  /-- R108, R111: the record holds the `pc` and the word of the machine it stopped. -/
  faultPrecise : ∀ r, s.fault = some r → r.pc = s.pc ∧ r.word = s.currentWord
  /-- R24, R94: a suspended machine's emitted value is the last of `outbuf`. -/
  suspendedOutput : s.status = .suspended → s.outbuf ≠ []
  /-- R5, R107: nothing wraps and nothing is out of range. -/
  inRange : s.allFit = true
  /-- R107: "Under `Unbounded` it can never be raised". -/
  noOverflow : s.intModel = .unbounded → ∀ r, s.fault = some r → r.code ≠ 6

/-! ## The ring -/

/-- A machine that no step of its own can change: halted, or starved with an empty queue (R112, R127). -/
def State.Stuck (s : State) : Prop :=
  isHalted s = true ∨ (s.inq = [] ∧ s.status = .awaitingInput ∧ step s = .next s)

/-- What holds of a ring in every round: its machines' invariant, their one integer model, their number, and, while the round has made no progress, that every
machine whose turn has passed is stuck (R127). -/
structure Ring.Inv (r : Ring) : Prop where
  /-- Every machine of the ring meets its own invariant. -/
  machinesInv : ∀ m ∈ r.machines, m.Inv
  /-- R5, R122: the machines are loaded under one integer model. -/
  oneModel : ∀ m ∈ r.machines, ∀ m' ∈ r.machines, m.intModel = m'.intModel
  /-- R121: a ring has at least one machine. -/
  nonempty : r.machines ≠ []
  /-- The machine whose turn it is stands in the ring, or the round is over. -/
  turnIn : r.turn ≤ r.machines.length
  /-- R127: a machine that has had its turn in a round without progress cannot progress. -/
  passedStuck : r.progress = false → ∀ j m, j < r.turn → r.machines[j]? = some m → m.Stuck
  /-- R127: a `Deadlock` is given only when every machine is stuck. -/
  deadlockStuck : ∀ k, r.verdict = some (.ringFault (.deadlock k)) → ∀ m ∈ r.machines, m.Stuck
  /-- R125: a result is given only when every machine has halted. -/
  resultHalted : ∀ v, r.verdict = some (.result v) → ∀ m ∈ r.machines, isHalted m = true

end Sys2Proof.Machine
end

