-- ==== Sys2Proof/Certificates/Slice0/Obligations.lean ====
section
/-! DEFINITION. The statements for the provers. Each is stated from a numbered rule of the spec; OBLIGATIONS.json gives the
rule. `InRange`, `Readable`, `Writable`, `AddressFault`, `address`, `value` and the invariants are those of Safety.lean. -/

open Sys2Proof Sys2Proof.Machine

/-! ## Encoding -/

/-- Words written out from R51, R55 and R64 decode to the instruction they stand for: one of each opcode, and one
instruction with its parameter words (R72's example `ADD [26], #-4, [26]`). -/
def Obligations.WrittenWordsDecode : Prop :=
  decodeWord 21101 = .ok ⟨.add, .immediate, .immediate, .relative⟩ ∧
  decodeWord 1002 = .ok ⟨.mul, .position, .immediate, .position⟩ ∧
  decodeWord 203 = .ok ⟨.inp, .relative, .position, .position⟩ ∧
  decodeWord 104 = .ok ⟨.out, .immediate, .position, .position⟩ ∧
  decodeWord 1105 = .ok ⟨.jt, .immediate, .immediate, .position⟩ ∧
  decodeWord 1206 = .ok ⟨.jf, .relative, .immediate, .position⟩ ∧
  decodeWord 1107 = .ok ⟨.lt, .immediate, .immediate, .position⟩ ∧
  decodeWord 20008 = .ok ⟨.eq, .position, .position, .relative⟩ ∧
  decodeWord 22209 = .ok ⟨.arb, .relative, .relative, .relative⟩ ∧
  decodeWord 10099 = .ok ⟨.hlt, .position, .position, .immediate⟩ ∧
  decode [1001, 26, -4, 26] = .ok (.add ⟨.position, 26⟩ ⟨.immediate, -4⟩ ⟨.position, 26⟩, [])

/-- The opcode map and the formats: number, format, parameter count, width and write parameter of each opcode, and no other
number is an opcode (R54, R62, R64). -/
def Obligations.OpcodeMapAndFormats : Prop :=
  (∀ row ∈ [(Opcode.add, 1, Format.RRW, 3, 4, some 3), (.mul, 2, .RRW, 3, 4, some 3), (.inp, 3, .W, 1, 2, some 1),
      (.out, 4, .R, 1, 2, none), (.jt, 5, .RR, 2, 3, none), (.jf, 6, .RR, 2, 3, none), (.lt, 7, .RRW, 3, 4, some 3),
      (.eq, 8, .RRW, 3, 4, some 3), (.arb, 9, .R, 1, 2, none), (.hlt, 99, .N, 0, 1, none)],
    Opcode.ofNat? row.2.1 = some row.1 ∧ row.1.toNat = row.2.1 ∧ row.1.format = row.2.2.1 ∧
      row.1.format.nparams = row.2.2.2.1 ∧ row.1.format.width = row.2.2.2.2.1 ∧ row.1.format.wparam = row.2.2.2.2.2) ∧
  ∀ n, n ∉ opcodeNumbers → Opcode.ofNat? n = none

/-- The verdict on every integer (R53, R54, R56, R57, R61, R68): which fault, in the order of R109, or the record.
The faults on negative words, on words of 100000 or more and on mode digits 3 to 9, and the order of the checks, are the
spec's own decisions D4 to D7 (92_eei_decisions.md). -/
def Obligations.DecodeVerdictOnEveryWord : Prop :=
  ∀ w : Int,
    (w < 0 → decodeWord w = .error (.illegalOpcode w)) ∧
    (0 ≤ w → w.toNat % 100 ∉ opcodeNumbers → decodeWord w = .error (.illegalOpcode w)) ∧
    (0 ≤ w → w.toNat % 100 ∈ opcodeNumbers →
      (100000 ≤ w → decodeWord w = .error (.illegalMode w none)) ∧
      (w < 100000 →
        (∀ k, 1 ≤ k → k ≤ 3 → 3 ≤ digit w.toNat (k + 1) → (∀ j, 1 ≤ j → j < k → digit w.toNat (j + 1) < 3) →
          decodeWord w = .error (.illegalMode w (some k))) ∧
        ((∀ k, 1 ≤ k → k ≤ 3 → digit w.toNat (k + 1) < 3) →
          (∀ k, writeParamOfNumber (w.toNat % 100) = some k → digit w.toNat (k + 1) = 1 →
            decodeWord w = .error (.immediateWriteTarget w k)) ∧
          ((∀ k, writeParamOfNumber (w.toNat % 100) = some k → digit w.toNat (k + 1) ≠ 1) →
            ∃ d, decodeWord w = .ok d ∧ d.op.toNat = w.toNat % 100 ∧ d.m1.toDigit = digit w.toNat 2 ∧
              d.m2.toDigit = digit w.toNat 3 ∧ d.m3.toDigit = digit w.toNat 4))))

/-- Decode and encode agree on instruction words, both ways (R69): an encoded word decodes to its opcode and modes, unless
R61 faults the combination; and every legal word is the encoding of what it decodes to (R69's own derivation from R51 and
R52). -/
def Obligations.InstructionWordRoundTrip : Prop :=
  ∀ d : Decoded,
    encodeWord d = (d.op.toNat : Int) + 100 * d.m1.toDigit + 1000 * d.m2.toDigit + 10000 * d.m3.toDigit ∧
    ((∀ k, d.wparam = some k → d.mode k ≠ some .immediate) → decodeWord (encodeWord d) = .ok d) ∧
    (∀ k, d.wparam = some k → d.mode k = some .immediate →
      decodeWord (encodeWord d) = .error (.immediateWriteTarget (encodeWord d) k)) ∧
    (∀ w, decodeWord w = .ok d → encodeWord d = w)

/-- The number of legal words of each opcode, and in all (R70): 18 for each opcode with a write parameter, 27 for each of
the others, 225 together; every other integer raises a decode fault. The counts are the spec's own derivation. -/
def Obligations.LegalWordCount : Prop :=
  (∀ op : Opcode, ∃ ws : List Int, ws.Nodup ∧ ws.length = (if op.format.wparam = none then 27 else 18) ∧
    ∀ w, w ∈ ws ↔ ∃ m1 m2 m3, decodeWord w = .ok ⟨op, m1, m2, m3⟩) ∧
  ∃ ws : List Int, ws.Nodup ∧ ws.length = 225 ∧
    ∀ w, (w ∈ ws ↔ ∃ d, decodeWord w = .ok d) ∧ (w ∉ ws ↔ ∃ e, decodeWord w = .error e)

/-- DECODE OF ENCODE: for every well-formed instruction, at every value of every operand and unused mode digit, the decoder
reads the instruction back from its cells and leaves the cells after it. -/
def Obligations.DecodeOfEncode : Prop :=
  ∀ (i : Instr) (rest : List Int), i.wellFormed = true → decode (encode i ++ rest) = .ok (i, rest)

/-- ENCODE OF DECODE: whatever the decoder reads from cells is well formed and is encoded by those very cells. -/
def Obligations.EncodeOfDecode : Prop :=
  ∀ (cells rest : List Int) (i : Instr), decode cells = .ok (i, rest) →
    i.wellFormed = true ∧ encode i ++ rest = cells

/-! ## Memory and operands -/

/-- `MemRead` and `MemWrite` (R34, R36): a write at `a ≥ 0` succeeds, is read back, leaves every other cell alone and keeps
the memory canonical; every cell never listed reads 0; and a negative address is `InvalidAddress` for both. The canonical
list, its form and the listed and unlisted cells are the model's representation of memory (notes/assumptions/4.md,
DEDUCED). -/
def Obligations.MemoryReadAfterWrite : Prop :=
  ∀ (m : Memory) (a v : Int), Memory.wf m = true →
    (0 ≤ a → ∃ m', memWrite m a v = .ok m' ∧ Memory.wf m' = true ∧
      ∀ b, 0 ≤ b → memRead m' b = if b = a then .ok v else memRead m b) ∧
    (a < 0 → memWrite m a v = .error (.invalidAddress a) ∧ memRead m a = .error (.invalidAddress a)) ∧
    (0 ≤ a → (∀ c ∈ m, c.1 ≠ a.toNat) → memRead m a = .ok 0)

/-- `ReadParam` by mode, with its two laws (R59). -/
def Obligations.ReadParamByMode : Prop :=
  ∀ (s : State) (v : Int),
    readParam s ⟨.immediate, v⟩ = .ok v ∧
    readParam s ⟨.position, v⟩ = memRead s.mem v ∧
    (InRange s.intModel (s.rb + v) → readParam s ⟨.relative, v⟩ = memRead s.mem (s.rb + v)) ∧
    (InRange s.intModel (s.rb + v) → readParam s ⟨.relative, v⟩ = readParam s ⟨.position, s.rb + v⟩) ∧
    (¬InRange s.intModel (s.rb + v) → readParam s ⟨.relative, v⟩ = .error (.overflow (s.rb + v)))

/-- `WriteAddr` by mode (R60), its address check made where the address is resolved (the spec's decision D7). That an
immediate target names `M[pc]` as its word in every state, in one where no instruction stands at `pc` too, is the model's
choice (notes/assumptions/12.md): the decoder catches such a target first (R61). -/
def Obligations.WriteAddrByMode : Prop :=
  ∀ (s : State) (k : Nat) (v : Int),
    writeAddr s k ⟨.immediate, v⟩ = .error (.immediateWriteTarget (s.cell s.pc) k) ∧
    writeAddr s k ⟨.position, v⟩ = (if v < 0 then .error (.invalidAddress v) else .ok v) ∧
    (InRange s.intModel (s.rb + v) →
      writeAddr s k ⟨.relative, v⟩ = if s.rb + v < 0 then .error (.invalidAddress (s.rb + v)) else .ok (s.rb + v)) ∧
    (¬InRange s.intModel (s.rb + v) → writeAddr s k ⟨.relative, v⟩ = .error (.overflow (s.rb + v)))

/-! ## What each instruction does -/

/-- ADD and MUL complete with the exact sum and product (R74), and raise `Overflow` with it, changing nothing else, where it
is not one of the model's integers. -/
def Obligations.AddMulAreExact : Prop :=
  ∀ (s : State) (a b t : Param), s.Readable a → s.Readable b → s.Writable t →
    (InRange s.intModel (s.value a + s.value b) → InRange s.intModel (s.pc + 4) →
      exec (.add a b t) s = .next { s with
        mem := Memory.write s.mem (s.address t).toNat (s.value a + s.value b), pc := s.pc + 4 }) ∧
    (InRange s.intModel (s.value a * s.value b) → InRange s.intModel (s.pc + 4) →
      exec (.mul a b t) s = .next { s with
        mem := Memory.write s.mem (s.address t).toNat (s.value a * s.value b), pc := s.pc + 4 }) ∧
    (¬InRange s.intModel (s.value a + s.value b) →
      exec (.add a b t) s = .next (s.takeFault (.overflow (s.value a + s.value b)))) ∧
    (¬InRange s.intModel (s.value a * s.value b) →
      exec (.mul a b t) s = .next (s.takeFault (.overflow (s.value a * s.value b))))

/-- LT and EQ complete with 1 or 0 by the signed, exact comparison of the two values (R81, R82). -/
def Obligations.LtEqWriteTruth : Prop :=
  ∀ (s : State) (a b t : Param), s.Readable a → s.Readable b → s.Writable t → InRange s.intModel (s.pc + 4) →
    exec (.lt a b t) s = .next { s with
      mem := Memory.write s.mem (s.address t).toNat (if s.value a < s.value b then 1 else 0), pc := s.pc + 4 } ∧
    exec (.eq a b t) s = .next { s with
      mem := Memory.write s.mem (s.address t).toNat (if s.value a = s.value b then 1 else 0), pc := s.pc + 4 }

/-- IN completes with the head of the queue at its target and the queue without it (R77). -/
def Obligations.InStoresQueueHead : Prop :=
  ∀ (s : State) (t : Param) (u2 u3 : Mode) (v : Int) (rest : List Int),
    s.Writable t → s.inq = v :: rest → InRange s.intModel (s.pc + 2) →
    exec (.inp t u2 u3) s = .next { s with
      mem := Memory.write s.mem (s.address t).toNat v, inq := rest, pc := s.pc + 2 }

/-- OUT completes: it appends the value, advances `pc` by 2 and suspends the machine (R78, C1). -/
def Obligations.OutAppendsAndSuspends : Prop :=
  ∀ (s : State) (a : Param) (u2 u3 : Mode), s.Readable a → InRange s.intModel (s.pc + 2) →
    exec (.out a u2 u3) s = .next { s with
      outbuf := s.outbuf ++ [s.value a], pc := s.pc + 2, status := .suspended }

/-- JT completes: it jumps where its condition is not zero and falls through by 3 where it is (R79). A taken jump needs no
`pc + 3`, and any target is legal in the jump. -/
def Obligations.JtJumpsWhenNotZero : Prop :=
  ∀ (s : State) (c d : Param) (u3 : Mode), s.Readable c → s.Readable d →
    (s.value c ≠ 0 → exec (.jt c d u3) s = .next { s with pc := s.value d }) ∧
    (s.value c = 0 → InRange s.intModel (s.pc + 3) → exec (.jt c d u3) s = .next { s with pc := s.pc + 3 })

/-- JF completes: it jumps where its condition is zero and falls through by 3 where it is not (R80). -/
def Obligations.JfJumpsWhenZero : Prop :=
  ∀ (s : State) (c d : Param) (u3 : Mode), s.Readable c → s.Readable d →
    (s.value c = 0 → exec (.jf c d u3) s = .next { s with pc := s.value d }) ∧
    (s.value c ≠ 0 → InRange s.intModel (s.pc + 3) → exec (.jf c d u3) s = .next { s with pc := s.pc + 3 })

/-- ARB completes: the value read at the old base is added to the base (R83); a new base out of range is `Overflow`. A
negative new base is no fault. -/
def Obligations.ArbAddsToBase : Prop :=
  ∀ (s : State) (a : Param) (u2 u3 : Mode), s.Readable a →
    (InRange s.intModel (s.rb + s.value a) → InRange s.intModel (s.pc + 2) →
      exec (.arb a u2 u3) s = .next { s with rb := s.rb + s.value a, pc := s.pc + 2 }) ∧
    (¬InRange s.intModel (s.rb + s.value a) →
      exec (.arb a u2 u3) s = .next (s.takeFault (.overflow (s.rb + s.value a))))

/-- HLT completes in every state and with every unused mode digit: `halted` and `status` are set and nothing else changes
(R84). That `pc` stays is the spec's own decision D11, not the source's. -/
def Obligations.HltHalts : Prop :=
  ∀ (s : State) (u1 u2 u3 : Mode),
    exec (.hlt u1 u2 u3) s = .next { s with halted := true, status := .halted }

/-! ## Faults and their order -/

/-- The order of faults of ADD, MUL, LT and EQ (R109, points 6 to 8 and 11; the result's overflow, point 10, is in
`AddMulAreExact`): parameter 1, parameter 2, the target, then `pc + 4`. The order is the spec's decision D7. -/
def Obligations.StoreInstrFaultOrder : Prop :=
  ∀ (s : State) (a b t : Param) (c : FaultCause),
    ∀ i ∈ [Instr.add a b t, .mul a b t, .lt a b t, .eq a b t],
      (s.AddressFault a c → exec i s = .next (s.takeFault c)) ∧
      (s.Readable a → s.AddressFault b c → exec i s = .next (s.takeFault c)) ∧
      (s.Readable a → s.Readable b → s.AddressFault t c → exec i s = .next (s.takeFault c)) ∧
      (s.Readable a → s.Readable b → s.Writable t → ¬InRange s.intModel (s.pc + 4) →
        (i = .add a b t → InRange s.intModel (s.value a + s.value b)) →
        (i = .mul a b t → InRange s.intModel (s.value a * s.value b)) →
        exec i s = .next (s.takeFault (.overflow (s.pc + 4))))

/-- The order of faults of JT and JF (R79, R80, R109): both parameters are resolved whether or not the jump is taken, then
`pc + 3` where it is not (the spec's decision D7). -/
def Obligations.JumpFaultOrder : Prop :=
  ∀ (s : State) (c d : Param) (u3 : Mode) (e : FaultCause),
    (∀ i ∈ [Instr.jt c d u3, .jf c d u3],
      (s.AddressFault c e → exec i s = .next (s.takeFault e)) ∧
      (s.Readable c → s.AddressFault d e → exec i s = .next (s.takeFault e))) ∧
    (s.Readable c → s.Readable d → ¬InRange s.intModel (s.pc + 3) →
      (s.value c = 0 → exec (.jt c d u3) s = .next (s.takeFault (.overflow (s.pc + 3)))) ∧
      (s.value c ≠ 0 → exec (.jf c d u3) s = .next (s.takeFault (.overflow (s.pc + 3)))))

/-- The order of faults of IN (R77, R109, points 8, 9 and 11): the target's fault before starvation, starvation before the
overflow of `pc + 2` (the spec's decisions D7 and D10). -/
def Obligations.InFaultOrder : Prop :=
  ∀ (s : State) (t : Param) (u2 u3 : Mode) (c : FaultCause),
    (s.AddressFault t c → exec (.inp t u2 u3) s = .next (s.takeFault c)) ∧
    (s.Writable t → s.inq = [] → exec (.inp t u2 u3) s = .next { s with status := .awaitingInput }) ∧
    (s.Writable t → s.inq ≠ [] → ¬InRange s.intModel (s.pc + 2) →
      exec (.inp t u2 u3) s = .next (s.takeFault (.overflow (s.pc + 2))))

/-- The order of faults of OUT and ARB (R78, R83, R109): the parameter, ARB's new base (in `ArbAddsToBase`), `pc + 2`
(the spec's decision D7). -/
def Obligations.OutArbFaultOrder : Prop :=
  ∀ (s : State) (a : Param) (u2 u3 : Mode) (c : FaultCause),
    (∀ i ∈ [Instr.out a u2 u3, .arb a u2 u3], s.AddressFault a c → exec i s = .next (s.takeFault c)) ∧
    (s.Readable a → ¬InRange s.intModel (s.pc + 2) →
      exec (.out a u2 u3) s = .next (s.takeFault (.overflow (s.pc + 2))) ∧
      (InRange s.intModel (s.rb + s.value a) →
        exec (.arb a u2 u3) s = .next (s.takeFault (.overflow (s.pc + 2)))))

/-- The faults of fetch and decode, and of the parameter words' addresses, in order (R90, R109, points 1 to 5; the spec's
decision D7). -/
def Obligations.FetchFaultOrder : Prop :=
  ∀ s : State, s.stopped = false →
    (s.pc < 0 → step s = .next { s with
      status := .faulted, fault := some { cause := .invalidAddress s.pc, pc := s.pc, word := none } }) ∧
    (0 ≤ s.pc → ∀ e, decodeWord (s.cell s.pc) = .error e → step s = .next { s with
      status := .faulted, fault := some { cause := decodeCause e, pc := s.pc, word := some (s.cell s.pc) } }) ∧
    (0 ≤ s.pc → ∀ d k, decodeWord (s.cell s.pc) = .ok d → 1 ≤ k → k ≤ d.nparams →
      (∀ j : Nat, 1 ≤ j → j < k → InRange s.intModel (s.pc + j)) → ¬InRange s.intModel (s.pc + k) →
      step s = .next { s with
        status := .faulted, fault := some { cause := .overflow (s.pc + k), pc := s.pc, word := some (s.cell s.pc) } })

/-- The codes and names of the faults (R101): codes 1, 2, 4, 5, 6 for the fatal faults of a machine, 3 for the recoverable
`InputStarved`, 16, 17 and 18 for the ring's, and the value each records. The numbers are the spec's own (D8). -/
def Obligations.FaultCodesAndNames : Prop :=
  ∀ (v : Int) (k : Nat) (o : Option Nat) (n : Nat) (pc : Int) (w : Option Int),
    (∀ row ∈ [(FaultCause.invalidAddress v, 1, "InvalidAddress", v, none), (.illegalOpcode v, 2, "IllegalOpcode", v, none),
        (.immediateWriteTarget v k, 4, "ImmediateWriteTarget", v, some k), (.illegalMode v o, 5, "IllegalMode", v, o),
        (.overflow v, 6, "Overflow", v, none)],
      FaultRecord.code ⟨row.1, pc, w⟩ = row.2.1 ∧ FaultRecord.name ⟨row.1, pc, w⟩ = row.2.2.1 ∧
        FaultRecord.info ⟨row.1, pc, w⟩ = row.2.2.2) ∧
    inputStarvedCode = 3 ∧ Fault.code (.deadlock n) = some 16 ∧ Fault.code .noOutput = some 17 ∧
      Refusal.code .emptyRing = some 18

/-- A fatal fault is precise and absorbing (R96, R108, R111): the step changes nothing but `status` and `fault`, whose record
holds the faulting `pc` and word; after it no step, no burst and no feed leaves `Faulted` or touches the record, and every
burst returns it (the spec's decisions D9, D12 and D28). -/
def Obligations.FatalFaultIsPreciseAndAbsorbing : Prop :=
  ∀ s t : State, s.stopped = false → step s = .next t → t.status = .faulted →
    (∃ c, t = { s with
      status := .faulted
      fault := some { cause := c, pc := s.pc, word := if s.pc < 0 then none else some (s.cell s.pc) } }) ∧
    step t = .next t ∧ (∀ n, burst n t = some (t, .fault t.fault)) ∧
    (∀ vs, (afterFeed t vs).status = .faulted ∧ (afterFeed t vs).fault = t.fault ∧
      step (afterFeed t vs) = .next (afterFeed t vs))

/-- Starvation is precise and resumable (R112): the starved step changes nothing but `status` and sets no fault; without a
feed the next burst starves again with the same effect; and after any feed the same instruction is fetched, decoded and
executed anew (the spec's decision D10). -/
def Obligations.StarvationIsPreciseAndResumable : Prop :=
  ∀ s t : State, s.stopped = false → step s = .next t → t.status = .awaitingInput →
    t = { s with status := .awaitingInput } ∧ s.inq = [] ∧ step t = .next t ∧
    (∀ n, burst (n + 1) t = some (t, .inputStarved)) ∧
    ∃ i, fetchInstr s = .ok i ∧ ∀ vs, step (afterFeed t vs) = exec i (afterFeed t vs).resume

/-- A burst of a halted machine returns `Halted`, executes no step and changes no state, and no feed wakes it (R95; the
spec's decision D11). -/
def Obligations.HaltedMachineStaysHalted : Prop :=
  ∀ s : State, s.status = .halted →
    step s = .next s ∧ (∀ n, burst n s = some (s, .halted)) ∧
    ∀ vs, step (afterFeed s vs) = .next (afterFeed s vs) ∧ (afterFeed s vs).status = .halted

/-! ## The step -/

/-- A STEP RUNS THE DECODED INSTRUCTION (R50, R58, R89): where the cells from `pc` decode to `i`, and the addresses of its
parameter words are the model's integers, a step is `exec i`, with nothing around it but the status `Running` that the
host's start of a burst sets (the model's choice, notes/assumptions/2.md). -/
def Obligations.StepRunsDecodedInstruction : Prop :=
  ∀ (s : State) (i : Instr) (rest : List Int), s.stopped = false → 0 ≤ s.pc →
    decode (cellsFrom s.mem s.pc.toNat 4) = .ok (i, rest) →
    (∀ k : Nat, 1 ≤ k → k < i.width → InRange s.intModel (s.pc + k)) →
    fetchInstr s = .ok i ∧ step s = exec i { s with status := .running }

/-- Every step ends with exactly one of five results and never with a fault or a refusal of the model (R92): the result is
`report` of the state it leaves, and says what the step changed. Beside R92 it rests on R84 with the spec's decision D11
(`pc` after halt, notes/assumptions/10.md), on R111, and on the model's choices that a step begins with the host's start of
a burst (2.md), that faults and starvation are next states (3.md) and that a result's payload is read from the state it
leaves (13.md). -/
def Obligations.StepEndsWithOneOfFiveResults : Prop :=
  ∀ s : State, ∃ t, step s = .next t ∧ (s.stopped = false →
    (report t = .continued ∧ t.outbuf = s.outbuf ∧ t.halted = s.halted ∧ t.fault = s.fault ∧
      ∃ i, fetchInstr s = .ok i ∧ i.decoded.op ≠ .out ∧ i.decoded.op ≠ .hlt) ∨
    (∃ v, report t = .output (some v) ∧ t.outbuf = s.outbuf ++ [v] ∧ ∃ i, fetchInstr s = .ok i ∧ i.decoded.op = .out) ∨
    (report t = .halted ∧ t = { s with halted := true, status := .halted } ∧
      ∃ i, fetchInstr s = .ok i ∧ i.decoded.op = .hlt) ∨
    (report t = .inputStarved ∧ t = { s with status := .awaitingInput } ∧
      ∃ i, fetchInstr s = .ok i ∧ i.decoded.op = .inp) ∨
    (∃ r, report t = .fault (some r) ∧ t = { s with status := .faulted, fault := some r }))

/-! ## Frames -/

/-- FRAME of ADD, MUL, LT and EQ (R18, R21, R22, R39): memory changes at the target's address alone and only where the
target resolves; `rb`, `inq`, `outbuf`, `halted` and the integer model never change; `status` and `fault` change only by a
fault, and then memory and `pc` do not. -/
def Obligations.StoreInstrFrame : Prop :=
  ∀ (s t : State) (a b p : Param), Memory.wf s.mem = true →
    ∀ i ∈ [Instr.add a b p, .mul a b p, .lt a b p, .eq a b p], exec i s = .next t →
      t.rb = s.rb ∧ t.inq = s.inq ∧ t.outbuf = s.outbuf ∧ t.halted = s.halted ∧ t.intModel = s.intModel ∧
      ((t.status = s.status ∧ t.fault = s.fault) ∨ (∃ c, t = s.takeFault c)) ∧
      (∀ ad, writeAddr s 3 p = .ok ad → ∀ x : Int, 0 ≤ x → x ≠ ad → t.cell x = s.cell x) ∧
      (∀ c, writeAddr s 3 p = .error c → ∀ x : Int, t.cell x = s.cell x)

/-- FRAME of IN (R21, R39, R77): memory changes at the target's address alone and only where the target resolves and the
queue is not empty; the queue loses its head or nothing; `rb`, `outbuf`, `halted` and the integer model never change. -/
def Obligations.InFrame : Prop :=
  ∀ (s t : State) (p : Param) (u2 u3 : Mode), Memory.wf s.mem = true → exec (.inp p u2 u3) s = .next t →
    t.rb = s.rb ∧ t.outbuf = s.outbuf ∧ t.halted = s.halted ∧ t.intModel = s.intModel ∧
    ((t.status = s.status ∧ t.fault = s.fault ∧ ∃ v, s.inq = v :: t.inq) ∨ t = { s with status := .awaitingInput } ∨
      (∃ c, t = s.takeFault c)) ∧
    (∀ ad, writeAddr s 1 p = .ok ad → s.inq ≠ [] → ∀ x : Int, 0 ≤ x → x ≠ ad → t.cell x = s.cell x) ∧
    (∀ c, writeAddr s 1 p = .error c → ∀ x : Int, t.cell x = s.cell x) ∧
    (s.inq = [] → ∀ x : Int, t.cell x = s.cell x)

/-- FRAME of OUT, JT, JF, ARB and HLT (R18, R21, R22, R39): none of them stores, so memory and the input queue never change;
only OUT changes `outbuf`, only ARB changes `rb`, only HLT changes `halted` and leaves `pc`; the integer model never
changes, and `fault` changes only by a fault, and then nothing but `status` changes with it (R111). That HLT leaves `pc` is
R84 with the spec's decision D11 (notes/assumptions/10.md). -/
def Obligations.NoStoreInstrFrame : Prop :=
  ∀ (s t : State) (c d : Param) (u1 u2 u3 : Mode),
    (exec (.out c u2 u3) s = .next t →
      t.mem = s.mem ∧ t.inq = s.inq ∧ t.rb = s.rb ∧ t.halted = s.halted ∧ t.intModel = s.intModel ∧
      ((t.fault = s.fault ∧ t.status = .suspended ∧ ∃ v, t.outbuf = s.outbuf ++ [v]) ∨ ∃ e, t = s.takeFault e)) ∧
    (∀ i ∈ [Instr.jt c d u3, .jf c d u3], exec i s = .next t →
      (∃ p, t = { s with pc := p }) ∨ ∃ e, t = s.takeFault e) ∧
    (exec (.arb c u2 u3) s = .next t →
      (∃ p b, t = { s with pc := p, rb := b }) ∨ ∃ e, t = s.takeFault e) ∧
    (exec (.hlt u1 u2 u3) s = .next t →
      t.mem = s.mem ∧ t.pc = s.pc ∧ t.rb = s.rb ∧ t.inq = s.inq ∧ t.outbuf = s.outbuf ∧ t.fault = s.fault ∧
      t.intModel = s.intModel)

/-! ## Rules of the whole machine -/

/-- At most one cell changes in a step, and only at the resolved write target of the instruction fetched (R39, R42): "Only
add, multiply, input, less-than and equals write memory, each at most one cell per instruction". -/
def Obligations.OneCellPerStep : Prop :=
  ∀ s t : State, Memory.wf s.mem = true → step s = .next t →
    ∀ x : Int, 0 ≤ x → t.cell x ≠ s.cell x →
      ∃ i p, fetchInstr s = .ok i ∧ writeTarget i = some p ∧ s.Writable p ∧ x = s.address p ∧
        i.decoded.op ∈ [Opcode.add, .mul, .inp, .lt, .eq]

/-- Each register and queue has the writers the spec gives it (R18, R21, R22, R23): a step changes `rb` only by ARB, `inq`
only by IN and then drops its head, `outbuf` only by OUT and then appends one value, and `halted` only by HLT. -/
def Obligations.EachElementHasItsWriter : Prop :=
  ∀ s t : State, Memory.wf s.mem = true → step s = .next t →
    (t.rb ≠ s.rb → ∃ a u2 u3, fetchInstr s = .ok (.arb a u2 u3) ∧ t.rb = s.rb + s.value a) ∧
    (t.inq ≠ s.inq → ∃ p u2 u3 v, fetchInstr s = .ok (.inp p u2 u3) ∧ s.inq = v :: t.inq ∧ t.cell (s.address p) = v) ∧
    (t.outbuf ≠ s.outbuf → ∃ a u2 u3, fetchInstr s = .ok (.out a u2 u3) ∧ t.outbuf = s.outbuf ++ [s.value a]) ∧
    (t.halted ≠ s.halted → t.halted = true ∧ ∃ u1 u2 u3, fetchInstr s = .ok (.hlt u1 u2 u3)) ∧
    t.intModel = s.intModel

/-- Self-modifying code needs no action (R48): after an ADD, MUL, LT, EQ or IN that completes, a fetch at any address, an
instruction's word or a parameter word, reads what it wrote at its target and every other cell as it was, and so does the
very next instruction's fetch. What each wrote is its result, for IN the head of a queue that is not empty, since it
completed. -/
def Obligations.FetchSeesEarlierWrite : Prop :=
  ∀ (s t : State) (a b p : Param) (u2 u3 : Mode), Memory.wf s.mem = true → t.status = .running →
    ∀ row ∈ [(Instr.add a b p, s.value a + s.value b), (.mul a b p, s.value a * s.value b),
        (.lt a b p, if s.value a < s.value b then 1 else 0), (.eq a b p, if s.value a = s.value b then 1 else 0),
        (.inp p u2 u3, s.inq.headD 0)],
      exec row.1 s = .next t →
        (∀ x : Int, 0 ≤ x → fetchWord { t with pc := x } = .ok (if x = s.address p then row.2 else s.cell x)) ∧
        (s.address p = t.pc → fetchWord t = .ok row.2)

/-- THE INVARIANT IS KEPT BY EVERY STEP, from every state that meets it: canonical memory, `halted` iff `status` is `Halted`,
a fault record iff `Faulted` and precise, the emitted value of a suspended machine, every integer in the model's range, and
no `Overflow` under `Unbounded` (R5, R23, R28, R94, R107, R111). -/
def Obligations.StepKeepsMachineInvariant : Prop :=
  ∀ s t : State, s.Inv → step s = .next t → t.Inv

/-- The state after reset meets the invariant, under both integer models (R129). -/
def Obligations.ResetMeetsMachineInvariant : Prop :=
  State.reset.Inv ∧ ∀ model, (State.resetUnder model).Inv

/-- The host's operations keep the invariant: every machine `load` makes has it (of any program
under `Unbounded`, of one that ends within the address range under `I64Checked`: notes/assumptions/14.md), and `feed` keeps it (R87, R88). -/
def Obligations.HostOperationsKeepMachineInvariant : Prop :=
  (∀ (model : IntModel) (program : List Int) (s : State),
    (model = .i64Checked → (program.length : Int) ≤ 9223372036854775808) → load model program = .ok s → s.Inv) ∧
  (∀ (s : State) (vs : List Int), s.Inv → (afterFeed s vs).Inv)

/-! ## Reset and the host's operations -/

/-- `load` makes the reset state of R129, and R20: the program at 0 up, 0 elsewhere, every other element as its rule says.
`State.reset` is the machine loaded with the empty program under the default model, and its first step raises
`IllegalOpcode` on the word 0 (R87). That `pc` and `rb` start at 0 and the status at `Running` are the spec's decisions D2,
D3 and D27. -/
def Obligations.LoadMakesResetState : Prop :=
  (∀ (model : IntModel) (program : List Int), (∀ v ∈ program, InRange model v) →
    ∃ s, load model program = .ok s ∧ (∀ i : Nat, s.cell i = program.getD i 0) ∧ s.pc = 0 ∧ s.rb = 0 ∧ s.inq = [] ∧
      s.outbuf = [] ∧ s.halted = false ∧ s.status = .running ∧ s.fault = none ∧ s.intModel = model) ∧
  load .unbounded [] = .ok State.reset ∧
  step State.reset = .next { State.reset with
    status := .faulted, fault := some { cause := .illegalOpcode 0, pc := 0, word := some 0 } }

/-- `feed` appends the values in order and changes nothing else, in every status, and a halted or faulted machine never
consumes them; a value out of range is refused and nothing changes (R88); and a program with an element out of range is
refused by `load` (R87; the spec's decisions D23 and D24). -/
def Obligations.FeedAppendsOrRefuses : Prop :=
  (∀ (s : State) (vs : List Int),
    ((∀ v ∈ vs, InRange s.intModel v) →
      feed s vs = .ok { s with inq := s.inq ++ vs } ∧ afterFeed s vs = { s with inq := s.inq ++ vs }) ∧
    ((∃ v ∈ vs, ¬InRange s.intModel v) → ∃ v ∈ vs, ¬InRange s.intModel v ∧
      feed s vs = .error (.feedOutOfRange v) ∧ afterFeed s vs = s) ∧
    (s.stopped = true → step (afterFeed s vs) = .next (afterFeed s vs))) ∧
  (∀ (model : IntModel) (program : List Int), (∃ v ∈ program, ¬InRange model v) →
    ∃ v ∈ program, ¬InRange model v ∧ load model program = .error (.loadOutOfRange v))

/-- `peek` returns each element, and `InvalidAddress` for a negative address (R97, the spec's own port, D13). -/
def Obligations.PeekReturnsEachElement : Prop :=
  ∀ (s : State) (a : Int),
    (0 ≤ a → peek s (.mem a) = .ok (.word (s.cell a))) ∧
    (a < 0 → peek s (.mem a) = .error (.invalidAddress a)) ∧
    peek s .pc = .ok (.word s.pc) ∧ peek s .rb = .ok (.word s.rb) ∧ peek s .inQ = .ok (.words s.inq) ∧
    peek s .outBuf = .ok (.words s.outbuf) ∧ peek s .status = .ok (.status s.status) ∧
    peek s .faultRecord = .ok (.record s.fault)

/-! ## The burst -/

/-- A burst returns at most one output value, and keeps it as the last element of `outbuf` (R94): a burst that ends in an
output appended exactly that value and left the machine suspended; a burst that ends otherwise appended none. The result's
payload, read from `outbuf`, is the model's choice (notes/assumptions/13.md), and that `outbuf` is never cleared is the
spec's decision D25 (10.md). -/
def Obligations.BurstReturnsAtMostOneOutput : Prop :=
  ∀ (s t : State) (r : StepResult), BurstEnds s t r →
    r ≠ .continued ∧
    (∀ v, r = .output v → ∃ x, v = some x ∧ t.outbuf = s.outbuf ++ [x] ∧ t.status = .suspended) ∧
    ((∀ v, r ≠ .output v) → t.outbuf = s.outbuf)

/-- A burst that does not end is a hang and is never cut off (R99): a jump whose condition holds and whose target is its own
address never lets the burst end. -/
def Obligations.SelfJumpHangs : Prop :=
  ∀ (s : State) (c d : Param) (u3 : Mode), s.stopped = false → s.Readable c → s.Readable d → s.value d = s.pc →
    ((fetchInstr s = .ok (.jt c d u3) → s.value c ≠ 0 → BurstHangs s) ∧
     (fetchInstr s = .ok (.jf c d u3) → s.value c = 0 → BurstHangs s))

/-- However long a burst is watched, it ends in one state with one result, and a hang is a burst with no end. That a burst is
watched for a number of steps is the model's choice (notes/assumptions/9.md); the statement says that the number does not
matter, so that the burst is R93's loop, with R99's hang where the loop has no end. -/
def Obligations.BurstOutcomeIsUnique : Prop :=
  ∀ s : State,
    (∀ n k t r, burst n s = some (t, r) → burst (n + k) s = some (t, r)) ∧
    (∀ t t' r r', BurstEnds s t r → BurstEnds s t' r' → t = t' ∧ r = r') ∧
    (BurstHangs s ↔ ¬∃ t r, BurstEnds s t r)

/-! ## The ring -/

/-- Ring construction (R122): one machine for each phase, each loaded fresh from the program and fed its phase, the first
also fed the initial signal. -/
def Obligations.RingConstruction : Prop :=
  ∀ (model : IntModel) (program phases : List Int) (signal : Int) (s0 : State),
    load model program = .ok s0 → phases ≠ [] → (∀ v ∈ phases, InRange model v) → InRange model signal →
    ∃ r, ringStart model program phases signal = .ok r ∧ r.turn = 0 ∧ r.round = 1 ∧ r.progress = false ∧
      r.verdict = none ∧ r.machines.length = phases.length ∧
      ∀ i phase, phases[i]? = some phase →
        r.machines[i]? = some { s0 with inq := phase :: (if i = 0 then [signal] else []) }

/-- Machines share nothing but the values routed (R30, R124): a step of the ring leaves every machine but the one whose turn
it is as it was, except that the successor's input queue may gain the one value output; and the machine whose turn it is
stays as it was or takes one step of its own, after which its own queue gains the value it output where it is its own
successor, in a ring of one machine (the spec's decision D31). That every output is in fact routed says
`RingRoutesEveryOutput`. The ring's steps and a result's payload are the model's choices (notes/assumptions/7.md, 13.md). -/
def Obligations.RingMovesOnlyOutputs : Prop :=
  ∀ (r : Ring) (j : Nat) (m : State), r.machines[j]? = some m →
    (j ≠ r.turn →
      r.step.machines[j]? = some m ∨
      (j = (r.turn + 1) % r.machines.length ∧ ∃ own own' v, r.machines[r.turn]? = some own ∧ step own = .next own' ∧
        report own' = .output (some v) ∧ r.step.machines[j]? = some { m with inq := m.inq ++ [v] })) ∧
    (j = r.turn →
      r.step.machines[j]? = some m ∨
      ∃ t, step m = .next t ∧ (r.step.machines[j]? = some t ∨
        (r.machines.length = 1 ∧ ∃ v, report t = .output (some v) ∧
          r.step.machines[j]? = some { t with inq := t.inq ++ [v] })))

/-- A turn of the ring is one burst of the machine whose turn it is (R123): where that burst ends, the drive loop, one step
of the machine at a time, comes to the `case r of` with its result. What the case does with each result says
`RingStepByResult`. The loop's small steps are the model's choice (notes/assumptions/7.md). -/
def Obligations.RingTurnIsOneBurst : Prop :=
  ∀ (r : Ring) (m t : State) (n : Nat) (res : StepResult), r.verdict = none → r.machines[r.turn]? = some m →
    isHalted m = false → burst n m = some (t, res) → ∃ k, k ≤ n + 1 ∧ r.run k = r.afterStep t res

/-- The end of a round (R123, R125, R126, R127): all halted ends the ring with the last output of the final machine, or
`NoOutput` where it has none; otherwise a round without progress is `Deadlock`, and a round with progress is followed by
the next (the spec's decisions D16 and D17). -/
def Obligations.RingRoundEnd : Prop :=
  ∀ (r : Ring) (last : State), r.verdict = none → r.turn = r.machines.length → r.machines.getLast? = some last →
    ((∀ m ∈ r.machines, m.halted = true) →
      (∀ v, last.outbuf.getLast? = some v → r.step = { r with verdict := some (.result v) }) ∧
      (last.outbuf = [] → r.step = { r with verdict := some (.ringFault .noOutput) })) ∧
    ((∃ m ∈ r.machines, m.halted = false) →
      (r.progress = false → r.step = { r with verdict := some (.ringFault (.deadlock r.round)) }) ∧
      (r.progress = true → r.step = { r with turn := 0, round := r.round + 1, progress := false }))

/-- THE RING'S INVARIANT IS KEPT BY EVERY STEP of the drive loop, from every ring that meets it. With it, the deadlock test
is exact (R127): `Deadlock` is given only when no machine can ever change again, and a result only when every machine has
halted. -/
def Obligations.RingStepKeepsRingInvariant : Prop :=
  ∀ r : Ring, r.Inv → r.step.Inv

/-- Every ring that is constructed meets the ring's invariant, of any program under `Unbounded`, of one that ends within the
address range under `I64Checked` (notes/assumptions/14.md); and a ring with no phase is refused as `EmptyRing` (R121, R122, R130; the spec's decision D19). -/
def Obligations.RingStartMeetsRingInvariant : Prop :=
  (∀ (model : IntModel) (program phases : List Int) (signal : Int) (r : Ring),
    (model = .i64Checked → (program.length : Int) ≤ 9223372036854775808) →
      ringStart model program phases signal = .ok r → r.Inv) ∧
  (∀ (model : IntModel) (program : List Int) (signal : Int), ringStart model program [] signal = .error .emptyRing)

/-- A fatal fault of a machine aborts the ring with that fault and the machine's index (R127), and a ring that has ended does
nothing more. -/
def Obligations.RingFaultAborts : Prop :=
  ∀ (r : Ring) (m t : State), r.verdict = none → r.machines[r.turn]? = some m → isHalted m = false →
    step m = .next t → t.status = .faulted →
    r.step.verdict = some (.ringFault (.machineFault r.turn t.fault)) ∧ ∀ n, r.step.run n = r.step

/-- Every output is routed (R124): the value that the machine whose turn it is outputs is appended to the input queue of the
machine after it, wrapping around, whatever the status of that machine, a halted one too (the spec's decision D33), and
nothing else of the ring's machines changes but the machine that stepped; in a ring of one machine it is appended to that
machine's own queue (D31). The invariant says that the ring's machines have one integer model, so that no value is turned
away by the feed (notes/assumptions/13.md). -/
def Obligations.RingRoutesEveryOutput : Prop :=
  ∀ (r : Ring) (m t : State) (v : Int), r.Inv → r.verdict = none → r.machines[r.turn]? = some m → isHalted m = false →
    step m = .next t → report t = .output (some v) →
      (r.machines.length = 1 → r.step.machines = [{ t with inq := t.inq ++ [v] }]) ∧
      (1 < r.machines.length → ∃ j succ, j = (r.turn + 1) % r.machines.length ∧ r.machines[j]? = some succ ∧
        r.step.machines[j]? = some { succ with inq := succ.inq ++ [v] } ∧ r.step.machines[r.turn]? = some t ∧
        ∀ k, k ≠ r.turn → k ≠ j → r.step.machines[k]? = r.machines[k]?)

/-- The `case r of` of the drive loop (R123), one step of the machine whose turn it is at a time: a halted machine is passed
over unchanged and never resumed; `Continue` goes on with the same turn; `Output` and `Halted` set `progress` and pass the
turn; `InputStarved` passes it and leaves `progress` as it was (the spec's decision D16); `Fault` ends the ring (R127). Where
an output goes says `RingRoutesEveryOutput`. The loop's small steps are the model's choice (notes/assumptions/7.md). -/
def Obligations.RingStepByResult : Prop :=
  ∀ (r : Ring) (m : State), r.verdict = none → r.machines[r.turn]? = some m →
    (m.halted = true → r.step = { r with turn := r.turn + 1 }) ∧
    (m.halted = false → ∀ t, step m = .next t →
      (report t = .continued → r.step = { r with machines := r.machines.set r.turn t }) ∧
      (∀ v, report t = .output v → r.step = { r with
        machines := r.step.machines, turn := r.turn + 1, progress := true }) ∧
      (report t = .halted → r.step = { r with
        machines := r.machines.set r.turn t, turn := r.turn + 1, progress := true }) ∧
      (report t = .inputStarved → r.step = { r with machines := r.machines.set r.turn t, turn := r.turn + 1 }) ∧
      (∀ rec, report t = .fault rec → r.step = { r with
        machines := r.machines.set r.turn t, verdict := some (.ringFault (.machineFault r.turn rec)) }))
end

