-- ==== Sys2Proof/Laws/State.lean ====
section
/-! SUPPORT. One lemma for each field and each named update of the state, so that later proofs unfold no record update. -/

namespace Sys2Proof.Machine.State

@[simp] theorem takeFault_mem (s : State) (c : FaultCause) : (s.takeFault c).mem = s.mem := rfl
@[simp] theorem takeFault_pc (s : State) (c : FaultCause) : (s.takeFault c).pc = s.pc := rfl
@[simp] theorem takeFault_rb (s : State) (c : FaultCause) : (s.takeFault c).rb = s.rb := rfl
@[simp] theorem takeFault_inq (s : State) (c : FaultCause) : (s.takeFault c).inq = s.inq := rfl
@[simp] theorem takeFault_outbuf (s : State) (c : FaultCause) : (s.takeFault c).outbuf = s.outbuf := rfl
@[simp] theorem takeFault_halted (s : State) (c : FaultCause) : (s.takeFault c).halted = s.halted := rfl
@[simp] theorem takeFault_status (s : State) (c : FaultCause) : (s.takeFault c).status = .faulted := rfl
@[simp] theorem takeFault_fault (s : State) (c : FaultCause) :
    (s.takeFault c).fault = some { cause := c, pc := s.pc, word := s.currentWord } := rfl
@[simp] theorem takeFault_intModel (s : State) (c : FaultCause) : (s.takeFault c).intModel = s.intModel := rfl
@[simp] theorem takeFault_currentWord (s : State) (c : FaultCause) : (s.takeFault c).currentWord = s.currentWord := rfl

@[simp] theorem resume_mem (s : State) : s.resume.mem = s.mem := rfl
@[simp] theorem resume_pc (s : State) : s.resume.pc = s.pc := rfl
@[simp] theorem resume_rb (s : State) : s.resume.rb = s.rb := rfl
@[simp] theorem resume_inq (s : State) : s.resume.inq = s.inq := rfl
@[simp] theorem resume_outbuf (s : State) : s.resume.outbuf = s.outbuf := rfl
@[simp] theorem resume_halted (s : State) : s.resume.halted = s.halted := rfl
@[simp] theorem resume_status (s : State) : s.resume.status = .running := rfl
@[simp] theorem resume_fault (s : State) : s.resume.fault = s.fault := rfl
@[simp] theorem resume_intModel (s : State) : s.resume.intModel = s.intModel := rfl
@[simp] theorem resume_resume (s : State) : s.resume.resume = s.resume := rfl
@[simp] theorem resume_currentWord (s : State) : s.resume.currentWord = s.currentWord := rfl
@[simp] theorem resume_stopped (s : State) : s.resume.stopped = false := rfl
@[simp] theorem resume_takeFault (s : State) (c : FaultCause) : s.resume.takeFault c = s.takeFault c := rfl

theorem stopped_eq_true_iff (s : State) : s.stopped = true ↔ s.status = .halted ∨ s.status = .faulted := by
  cases h : s.status <;> simp [State.stopped, h]

theorem stopped_eq_false_iff (s : State) : s.stopped = false ↔ s.status ≠ .halted ∧ s.status ≠ .faulted := by
  cases h : s.status <;> simp [State.stopped, h]

/-- A running machine is its own resumed self. -/
theorem resume_of_running {s : State} (h : s.status = .running) : s.resume = s := by
  cases s; cases h; rfl

@[simp] theorem fetchInstr_resume (s : State) : fetchInstr s.resume = fetchInstr s := rfl

end Sys2Proof.Machine.State
end

