-- ==== Sys2Proof/Laws/Memory.lean ====
section
/-! SUPPORT. The laws of memory (spec R34 to R38): read after write, the canonical form is kept, and equal reads mean equal
memories. -/

namespace Sys2Proof.Machine.Memory

theorem wfFrom_mono {lo lo' : Nat} (h : lo' ≤ lo) : ∀ {m : Memory}, wfFrom lo m = true → wfFrom lo' m = true
  | [], _ => rfl
  | (b, x) :: m, hw => by
    simp only [wfFrom, Bool.and_eq_true, decide_eq_true_eq] at hw ⊢
    exact ⟨⟨by omega, hw.1.2⟩, hw.2⟩

/-- An address below a canonical memory's first entry reads as an unlisted one. -/
theorem read_below {lo a : Nat} (ha : a < lo) : ∀ {m : Memory}, wfFrom lo m = true → read m a = unlisted
  | [], _ => rfl
  | (b, x) :: m, hw => by
    simp only [wfFrom, Bool.and_eq_true, decide_eq_true_eq] at hw
    have hne : a ≠ b := by omega
    simp only [read, hne, if_false]
    exact read_below (lo := b + 1) (by omega) hw.2

theorem wfFrom_write {lo a : Nat} (v : Int) (ha : lo ≤ a) :
    ∀ {m : Memory}, wfFrom lo m = true → wfFrom lo (write m a v) = true
  | [], _ => by
    unfold write
    split
    · rfl
    · simp [wfFrom, *]
  | (b, x) :: m, hw => by
    simp only [wfFrom, Bool.and_eq_true, decide_eq_true_eq] at hw
    unfold write
    split
    · split
      · simp [wfFrom, hw]
      · have : a + 1 ≤ b := by omega
        simp [wfFrom, *]
    · split
      · split
        · exact wfFrom_mono (by omega) hw.2
        · subst a; simp [wfFrom, *]
      · have := wfFrom_write (lo := b + 1) (a := a) v (by omega) hw.2
        simp [wfFrom, hw, this]

/-- Every write keeps the canonical form. -/
theorem wf_write {m : Memory} (h : wf m = true) (a : Nat) (v : Int) : wf (write m a v) = true :=
  wfFrom_write v (Nat.zero_le a) h

theorem read_write_from {lo : Nat} (a b : Nat) (v : Int) :
    ∀ {m : Memory}, wfFrom lo m = true → read (write m a v) b = if b = a then v else read m b
  | [], _ => by
    unfold write
    split
    · next h => subst h; simp [read]
    · simp [read]
  | (c, x) :: m, hw => by
    simp only [wfFrom, Bool.and_eq_true, decide_eq_true_eq] at hw
    have below : ∀ d, d < c + 1 → read m d = unlisted := fun d hd => read_below hd hw.2
    unfold write
    split
    · next hac =>
      split
      · next hv =>
        subst hv
        by_cases hb : b = a
        · subst hb
          have : b ≠ c := by omega
          simp [read, this, below b (by omega)]
        · simp [hb]
      · simp [read]
    · split
      · next hac =>
        subst hac
        split
        · next hv =>
          subst hv
          by_cases hb : b = a
          · subst hb; simp [below b (by omega)]
          · simp [read, hb]
        · by_cases hb : b = a <;> simp [read, hb]
      · next hac =>
        have ih := read_write_from (lo := c + 1) a b v hw.2
        simp only [read, ih]
        by_cases hb : b = c
        · subst hb; simp [Ne.symm hac]
        · simp [hb]

/-- Read after write (R34, R36). -/
theorem read_write {m : Memory} (h : wf m = true) (a b : Nat) (v : Int) :
    read (write m a v) b = if b = a then v else read m b := read_write_from a b v h

theorem ext_from {lo : Nat} : ∀ {m m' : Memory}, wfFrom lo m = true → wfFrom lo m' = true →
    (∀ a, read m a = read m' a) → m = m'
  | [], [], _, _, _ => rfl
  | [], (b, x) :: m', _, hw', he => by
    simp only [wfFrom, Bool.and_eq_true, decide_eq_true_eq] at hw'
    have := he b
    simp [read] at this
    exact absurd this.symm hw'.1.2
  | (b, x) :: m, [], hw, _, he => by
    simp only [wfFrom, Bool.and_eq_true, decide_eq_true_eq] at hw
    have := he b
    simp [read] at this
    exact absurd this hw.1.2
  | (b, x) :: m, (c, y) :: m', hw, hw', he => by
    simp only [wfFrom, Bool.and_eq_true, decide_eq_true_eq] at hw hw'
    have hbc : b = c := by
      rcases Nat.lt_trichotomy b c with h | h | h
      · have := he b
        have hne : b ≠ c := by omega
        simp [read, hne, read_below (lo := c + 1) (a := b) (by omega) hw'.2] at this
        exact absurd this hw.1.2
      · exact h
      · have := he c
        have hne : c ≠ b := by omega
        simp [read, hne, read_below (lo := b + 1) (a := c) (by omega) hw.2] at this
        exact absurd this.symm hw'.1.2
    subst hbc
    have hxy : x = y := by have := he b; simpa [read] using this
    subst hxy
    have : m = m' := ext_from (lo := b + 1) hw.2 hw'.2 fun a => by
      by_cases h : a = b
      · subst h
        rw [read_below (Nat.lt_succ_self a) hw.2, read_below (Nat.lt_succ_self a) hw'.2]
      · have := he a; simpa [read, h] using this
    rw [this]

theorem wf_writeList : ∀ (vs : List Int) {m : Memory} (a : Nat), wf m = true → wf (writeList m a vs) = true
  | [], _, _, h => h
  | v :: vs, _, a, h => wf_writeList vs (a + 1) (wf_write h a v)

/-- What a memory reads after a list of values is written from an address up. -/
theorem read_writeList : ∀ (vs : List Int) {m : Memory} (a b : Nat), wf m = true →
    read (writeList m a vs) b = if a ≤ b ∧ b < a + vs.length then vs.getD (b - a) 0 else read m b
  | [], m, a, b, _ => by
    have : ¬(a ≤ b ∧ b < a + ([] : List Int).length) := by simp
    rw [if_neg this, writeList]
  | v :: vs, m, a, b, h => by
    rw [writeList, read_writeList vs (a + 1) b (wf_write h a v), read_write h]
    rcases Nat.lt_trichotomy b a with hb | hb | hb
    · have h1 : ¬(a + 1 ≤ b ∧ b < a + 1 + vs.length) := by omega
      have h2 : ¬(a ≤ b ∧ b < a + (v :: vs).length) := by omega
      have h3 : b ≠ a := by omega
      rw [if_neg h1, if_neg h2, if_neg h3]
    · subst hb
      have h1 : ¬(b + 1 ≤ b ∧ b < b + 1 + vs.length) := by omega
      have h2 : b ≤ b ∧ b < b + (v :: vs).length := by simp
      rw [if_neg h1, if_pos h2, if_pos rfl]; simp
    · have h3 : b ≠ a := by omega
      by_cases hl : b < a + 1 + vs.length
      · have h1 : a + 1 ≤ b ∧ b < a + 1 + vs.length := ⟨hb, hl⟩
        have h2 : a ≤ b ∧ b < a + (v :: vs).length := by simp; omega
        have h4 : b - a = (b - (a + 1)) + 1 := by omega
        rw [if_pos h1, if_pos h2, h4]; rfl
      · have h1 : ¬(a + 1 ≤ b ∧ b < a + 1 + vs.length) := by omega
        have h2 : ¬(a ≤ b ∧ b < a + (v :: vs).length) := by simp; omega
        rw [if_neg h1, if_neg h2, if_neg h3]

/-! ## The integers of a memory (R5) -/

theorem allFit_read {model : IntModel} : ∀ {m : Memory}, allFit model m = true → ∀ a, fits model (read m a) = true
  | [], _, a => by cases model <;> simp [read, unlisted, fits, Config.i64Min, Config.i64Max]
  | (b, x) :: m, h, a => by
    simp only [allFit, Bool.and_eq_true] at h
    simp only [read]
    split
    · exact h.1.2
    · exact allFit_read h.2 a

theorem allFit_write {model : IntModel} {a : Nat} {v : Int} (ha : fits model (a : Int) = true) (hv : fits model v = true) :
    ∀ {m : Memory}, allFit model m = true → allFit model (write m a v) = true
  | [], _ => by
    unfold write
    split <;> simp [allFit, ha, hv]
  | (b, x) :: m, h => by
    have h' := h
    simp only [allFit, Bool.and_eq_true] at h'
    unfold write
    split
    · split
      · exact h
      · simp [allFit, ha, hv, h']
    · split
      · split
        · exact h'.2
        · simp [allFit, ha, hv, h']
      · simp [allFit, h', allFit_write ha hv h'.2]

end Sys2Proof.Machine.Memory
end

