-- ==== Sys2Proof/Laws/Operands.lean ====
section
/-! SUPPORT. One lemma for each shared operation that says once everything it can do: the range check, the memory
primitives, operand resolution, and the shapes of Machine/Operands.lean. Later proofs cite these and unfold nothing. -/

namespace Sys2Proof.Machine

/-- The bind of the checks: it answers where both parts do. -/
@[simp] theorem bind_eq_ok {ε α β : Type} {x : Except ε α} {f : α → Except ε β} {b : β} :
    (x >>= f) = .ok b ↔ ∃ a, x = .ok a ∧ f a = .ok b := by
  cases x <;> simp [bind, Except.bind]

/-- The first fault of a sequence of checks is the one that is raised (R109). -/
theorem bind_eq_error {ε α β : Type} {x : Except ε α} {f : α → Except ε β} {e : ε} :
    (x >>= f) = .error e ↔ x = .error e ∨ ∃ a, x = .ok a ∧ f a = .error e := by
  cases x <;> simp [bind, Except.bind]

@[simp] theorem ok_bind {ε α β : Type} (a : α) (f : α → Except ε β) : ((.ok a : Except ε α) >>= f) = f a := rfl

@[simp] theorem error_bind {ε α β : Type} (e : ε) (f : α → Except ε β) : ((.error e : Except ε α) >>= f) = .error e := rfl

/-! ## Range checks -/

@[simp] theorem fits_unbounded (v : Int) : fits .unbounded v = true := rfl

theorem fits_zero (model : IntModel) : fits model 0 = true := by
  cases model <;> simp [fits, Config.i64Min, Config.i64Max]

theorem fits_truthWord (model : IntModel) (b : Bool) : fits model (truthWord b) = true := by
  cases model <;> cases b <;> simp [fits, truthWord, Config.i64Min, Config.i64Max]

/-- The model's range check is the spec's range (R5). -/
theorem fits_eq_true_iff {model : IntModel} {v : Int} : fits model v = true ↔ InRange model v := by
  cases model
  · simp [fits, InRange]
  · simp only [fits, Bool.and_eq_true, decide_eq_true_eq]
    simp [InRange, Config.i64Min, Config.i64Max]

theorem fits_eq_false_iff {model : IntModel} {v : Int} : fits model v = false ↔ ¬InRange model v := by
  rw [← fits_eq_true_iff, Bool.not_eq_true]

theorem checked_eq_ok {model : IntModel} {v x : Int} : checked model v = .ok x ↔ InRange model v ∧ x = v := by
  rw [← fits_eq_true_iff]; unfold checked; split <;> simp [*, eq_comm]

theorem checked_eq_error {model : IntModel} {v : Int} {c : FaultCause} :
    checked model v = .error c ↔ ¬InRange model v ∧ c = .overflow v := by
  rw [← fits_eq_false_iff]; unfold checked; split <;> simp [*, eq_comm]

theorem advance_eq_ok {s : State} {w : Nat} {p : Int} :
    advance s w = .ok p ↔ InRange s.intModel (s.pc + (w : Int)) ∧ p = s.pc + (w : Int) := checked_eq_ok

theorem advance_eq_error {s : State} {w : Nat} {c : FaultCause} :
    advance s w = .error c ↔ ¬InRange s.intModel (s.pc + (w : Int)) ∧ c = .overflow (s.pc + (w : Int)) :=
  checked_eq_error

/-! ## Memory primitives -/

theorem checkAddress_eq_ok {a : Int} {n : Nat} : checkAddress a = .ok n ↔ 0 ≤ a ∧ n = a.toNat := by
  unfold checkAddress
  split
  · next h => simp [h]
  · next h => simp [eq_comm (b := n), not_lt.mp h]

theorem checkAddress_eq_error {a : Int} {c : FaultCause} :
    checkAddress a = .error c ↔ a < 0 ∧ c = .invalidAddress a := by
  unfold checkAddress; split <;> simp [*, eq_comm]

theorem memRead_eq_ok {m : Memory} {a v : Int} : memRead m a = .ok v ↔ 0 ≤ a ∧ v = Memory.read m a.toNat := by
  simp [memRead, checkAddress_eq_ok, and_assoc, eq_comm (b := v)]

theorem memRead_eq_error {m : Memory} {a : Int} {c : FaultCause} :
    memRead m a = .error c ↔ a < 0 ∧ c = .invalidAddress a := by
  simp [memRead, bind_eq_error, checkAddress_eq_error]

theorem memWrite_eq_ok {m m' : Memory} {a v : Int} :
    memWrite m a v = .ok m' ↔ 0 ≤ a ∧ m' = Memory.write m a.toNat v := by
  simp [memWrite, checkAddress_eq_ok, and_assoc, eq_comm (b := m')]

theorem memWrite_eq_error {m : Memory} {a v : Int} {c : FaultCause} :
    memWrite m a v = .error c ↔ a < 0 ∧ c = .invalidAddress a := by
  simp [memWrite, bind_eq_error, checkAddress_eq_error]

/-! ## Operand resolution -/

/-- A read parameter answers its value exactly where it is readable (R59). -/
theorem readParam_eq_ok {s : State} {p : Param} {v : Int} :
    readParam s p = .ok v ↔ s.Readable p ∧ v = s.value p := by
  unfold readParam State.Readable State.Reachable State.value State.cell
  cases p.mode
  · simp [memRead_eq_ok]
  · simp [eq_comm]
  · simp [memRead_eq_ok, checked_eq_ok, and_assoc]

/-- A read parameter raises the fault of its effective address and no other (R109). -/
theorem readParam_eq_error {s : State} {p : Param} {c : FaultCause} :
    readParam s p = .error c ↔ s.AddressFault p c := by
  unfold readParam State.AddressFault
  cases p.mode
  · simp [memRead_eq_error]
  · simp
  · simp [bind_eq_error, checked_eq_error, checked_eq_ok, memRead_eq_error, and_assoc]

/-- A write target answers its address exactly where it is writable (R60). -/
theorem writeAddr_eq_ok {s : State} {k : Nat} {p : Param} {a : Int} :
    writeAddr s k p = .ok a ↔ s.Writable p ∧ a = s.address p := by
  unfold writeAddr State.Writable State.Reachable State.address
  cases p.mode
  · simp [checkAddress_eq_ok, eq_comm (b := a)]
  · simp
  · simp [checkAddress_eq_ok, checked_eq_ok, and_assoc, eq_comm (b := a)]

/-- A write target that is not immediate raises the fault of its effective address and no other (R109). -/
theorem writeAddr_eq_error {s : State} {k : Nat} {p : Param} {c : FaultCause} (hp : p.mode ≠ .immediate) :
    writeAddr s k p = .error c ↔ s.AddressFault p c := by
  unfold writeAddr State.AddressFault
  revert hp
  cases p.mode
  · simp [bind_eq_error, checkAddress_eq_error]
  · simp
  · simp [bind_eq_error, checked_eq_error, checked_eq_ok, checkAddress_eq_error, and_assoc]

/-- A writable target's address is legal. -/
theorem State.Writable.address_nonneg {s : State} {p : Param} (h : s.Writable p) : 0 ≤ s.address p := by
  obtain ⟨h1, h2⟩ := h
  unfold State.Reachable at h2
  unfold State.address
  revert h1 h2
  cases p.mode
  · simp
  · simp
  · simp

/-! ## The shared shapes -/

theorem conclude_ok (s t : State) : conclude s (.ok t) = .next t := rfl

theorem conclude_error (s : State) (c : FaultCause) : conclude s (.error c) = .next (s.takeFault c) := rfl

/-- An instruction that ends its checks answers a next state: its committed state, or the fault taken (R111). -/
theorem conclude_cases {s t : State} {e : Except FaultCause State} (h : conclude s e = .next t) :
    e = .ok t ∨ ∃ c, e = .error c ∧ t = s.takeFault c := by
  cases e with
  | ok u => left; cases h; rfl
  | error c => right; cases h; exact ⟨c, rfl, rfl⟩

/-- Everything two reads and a store can commit (R91). -/
theorem storeBinary_eq_ok {s t : State} {a b p : Param} {f : Int → Int → Except FaultCause Int} :
    storeBinary s a b p f = .ok t ↔
      s.Readable a ∧ s.Readable b ∧ s.Writable p ∧ InRange s.intModel (s.pc + 4) ∧
      ∃ r, f (s.value a) (s.value b) = .ok r ∧
        t = { s with mem := Memory.write s.mem (s.address p).toNat r, pc := s.pc + 4 } := by
  simp only [storeBinary, bind_eq_ok, readParam_eq_ok, writeAddr_eq_ok, advance_eq_ok, memWrite_eq_ok]
  constructor
  · rintro ⟨x, ⟨hx, rfl⟩, y, ⟨hy, rfl⟩, ad, ⟨hw, rfl⟩, r, hr, q, ⟨hq, rfl⟩, m, ⟨_, rfl⟩, h⟩
    cases h
    exact ⟨hx, hy, hw, hq, r, hr, rfl⟩
  · rintro ⟨hx, hy, hw, hq, r, hr, rfl⟩
    exact ⟨_, ⟨hx, rfl⟩, _, ⟨hy, rfl⟩, _, ⟨hw, rfl⟩, r, hr, _, ⟨hq, rfl⟩, _, ⟨hw.address_nonneg, rfl⟩, rfl⟩

/-- Where a jump can go (R66). -/
theorem jumpTarget_eq_ok {s : State} {d p : Int} {taken : Bool} :
    jumpTarget s d taken = .ok p ↔
      (taken = true ∧ p = d) ∨ (taken = false ∧ InRange s.intModel (s.pc + 3) ∧ p = s.pc + 3) := by
  cases taken with
  | true => simp only [jumpTarget, if_true, Except.ok.injEq, eq_comm (b := p)]; simp
  | false =>
    simp only [jumpTarget, Bool.false_eq_true, if_false, false_and, true_and, false_or]
    exact advance_eq_ok

/-- Everything a conditional jump can commit (R79, R80). -/
theorem jumpWhen_eq_ok {s t : State} {c d : Param} {test : Int → Bool} :
    jumpWhen s c d test = .ok t ↔
      s.Readable c ∧ s.Readable d ∧
      ((test (s.value c) = true ∧ t = { s with pc := s.value d }) ∨
       (test (s.value c) = false ∧ InRange s.intModel (s.pc + 3) ∧ t = { s with pc := s.pc + 3 })) := by
  simp only [jumpWhen, bind_eq_ok, readParam_eq_ok]
  constructor
  · rintro ⟨x, ⟨hx, rfl⟩, y, ⟨hy, rfl⟩, q, hq, h⟩
    cases h
    rcases jumpTarget_eq_ok.mp hq with ⟨ht, rfl⟩ | ⟨ht, hf, rfl⟩
    · exact ⟨hx, hy, .inl ⟨ht, rfl⟩⟩
    · exact ⟨hx, hy, .inr ⟨ht, hf, rfl⟩⟩
  · rintro ⟨hx, hy, h⟩
    rcases h with ⟨ht, rfl⟩ | ⟨ht, hf, rfl⟩
    · exact ⟨_, ⟨hx, rfl⟩, _, ⟨hy, rfl⟩, _, jumpTarget_eq_ok.mpr (.inl ⟨ht, rfl⟩), rfl⟩
    · exact ⟨_, ⟨hx, rfl⟩, _, ⟨hy, rfl⟩, _, jumpTarget_eq_ok.mpr (.inr ⟨ht, hf, rfl⟩), rfl⟩

/-- Everything an input from a queue that is not empty can commit (R77). -/
theorem storeInput_eq_ok {s t : State} {addr v : Int} {rest : List Int} :
    storeInput s addr v rest = .ok t ↔
      InRange s.intModel (s.pc + 2) ∧ 0 ≤ addr ∧
        t = { s with mem := Memory.write s.mem addr.toNat v, pc := s.pc + 2, inq := rest } := by
  simp only [storeInput, bind_eq_ok, advance_eq_ok, memWrite_eq_ok]
  constructor
  · rintro ⟨q, ⟨hq, rfl⟩, m, ⟨ha, rfl⟩, h⟩
    cases h
    exact ⟨hq, ha, rfl⟩
  · rintro ⟨hq, ha, rfl⟩
    exact ⟨_, ⟨hq, rfl⟩, _, ⟨ha, rfl⟩, rfl⟩

/-- Everything an output can commit (R78). -/
theorem emitOutput_eq_ok {s t : State} {a : Param} :
    emitOutput s a = .ok t ↔
      s.Readable a ∧ InRange s.intModel (s.pc + 2) ∧
        t = { s with outbuf := s.outbuf ++ [s.value a], pc := s.pc + 2, status := .suspended } := by
  simp only [emitOutput, bind_eq_ok, readParam_eq_ok, advance_eq_ok]
  constructor
  · rintro ⟨v, ⟨hv, rfl⟩, q, ⟨hq, rfl⟩, h⟩
    cases h
    exact ⟨hv, hq, rfl⟩
  · rintro ⟨hv, hq, rfl⟩
    exact ⟨_, ⟨hv, rfl⟩, _, ⟨hq, rfl⟩, rfl⟩

/-- Everything an adjustment of the relative base can commit (R83). -/
theorem adjustBase_eq_ok {s t : State} {a : Param} :
    adjustBase s a = .ok t ↔
      s.Readable a ∧ InRange s.intModel (s.rb + s.value a) ∧ InRange s.intModel (s.pc + 2) ∧
        t = { s with rb := s.rb + s.value a, pc := s.pc + 2 } := by
  simp only [adjustBase, bind_eq_ok, readParam_eq_ok, checked_eq_ok, advance_eq_ok]
  constructor
  · rintro ⟨v, ⟨hv, rfl⟩, b, ⟨hb, rfl⟩, q, ⟨hq, rfl⟩, h⟩
    cases h
    exact ⟨hv, hb, hq, rfl⟩
  · rintro ⟨hv, hb, hq, rfl⟩
    exact ⟨_, ⟨hv, rfl⟩, _, ⟨hb, rfl⟩, _, ⟨hq, rfl⟩, rfl⟩

end Sys2Proof.Machine
end

