-- ==== Sys2Proof/Laws/Exec.lean ====
section
/-! SUPPORT. What each instruction can do, said once: if it answers a next state, it either took a fault or committed exactly
the effect its rule gives. The frames, the invariants and the whole-machine rules are read off these. -/

namespace Sys2Proof.Machine

/-- `t` is `s` with a fatal fault taken, which is no overflow under `Unbounded` (R107, R111). -/
def FaultTaken (s t : State) : Prop :=
  ∃ c, t = s.takeFault c ∧ (s.intModel = .unbounded → c.code ≠ 6)

/-- A sequence of checks that never overflows under `Unbounded`. -/
def NoOverflow {α : Type} (s : State) (e : Except FaultCause α) : Prop :=
  ∀ c, e = .error c → s.intModel = .unbounded → c.code ≠ 6

theorem NoOverflow.bind {α β : Type} {s : State} {x : Except FaultCause α} {f : α → Except FaultCause β}
    (hx : NoOverflow s x) (hf : ∀ a, NoOverflow s (f a)) : NoOverflow s (x >>= f) := by
  intro c hc hu
  rcases bind_eq_error.mp hc with h | ⟨a, _, h⟩
  · exact hx c h hu
  · exact hf a c h hu

theorem noOverflow_ok {α : Type} (s : State) (a : α) : NoOverflow s (.ok a) := by
  intro c hc; cases hc

theorem noOverflow_checked (s : State) (v : Int) : NoOverflow s (checked s.intModel v) := by
  intro c hc hu
  obtain ⟨h, _⟩ := checked_eq_error.mp hc
  exact absurd (.inl hu) h

theorem noOverflow_advance (s : State) (w : Nat) : NoOverflow s (advance s w) := noOverflow_checked s _

theorem noOverflow_checkAddress (s : State) (a : Int) : NoOverflow s (checkAddress a) := by
  intro c hc _
  obtain ⟨_, rfl⟩ := checkAddress_eq_error.mp hc
  simp [FaultCause.code]

theorem noOverflow_memRead (s : State) (m : Memory) (a : Int) : NoOverflow s (memRead m a) :=
  (noOverflow_checkAddress s a).bind fun _ => noOverflow_ok s _

theorem noOverflow_memWrite (s : State) (m : Memory) (a v : Int) : NoOverflow s (memWrite m a v) :=
  (noOverflow_checkAddress s a).bind fun _ => noOverflow_ok s _

theorem noOverflow_readParam (s : State) (p : Param) : NoOverflow s (readParam s p) := by
  unfold readParam
  cases p.mode
  · exact noOverflow_memRead s _ _
  · exact noOverflow_ok s _
  · exact (noOverflow_checked s _).bind fun _ => noOverflow_memRead s _ _

theorem noOverflow_writeAddr (s : State) (k : Nat) (p : Param) : NoOverflow s (writeAddr s k p) := by
  unfold writeAddr
  cases p.mode
  · exact (noOverflow_checkAddress s _).bind fun _ => noOverflow_ok s _
  · intro c hc _; cases hc; simp [FaultCause.code]
  · exact (noOverflow_checked s _).bind fun _ => (noOverflow_checkAddress s _).bind fun _ => noOverflow_ok s _

theorem noOverflow_storeBinary (s : State) (a b p : Param) {f : Int → Int → Except FaultCause Int}
    (hf : ∀ x y, NoOverflow s (f x y)) : NoOverflow s (storeBinary s a b p f) :=
  (noOverflow_readParam s a).bind fun _ => (noOverflow_readParam s b).bind fun _ =>
    (noOverflow_writeAddr s 3 p).bind fun _ => (hf _ _).bind fun _ => (noOverflow_advance s _).bind fun _ =>
      (noOverflow_memWrite s _ _ _).bind fun _ => noOverflow_ok s _

theorem noOverflow_jumpWhen (s : State) (c d : Param) (test : Int → Bool) : NoOverflow s (jumpWhen s c d test) := by
  refine (noOverflow_readParam s c).bind fun x => (noOverflow_readParam s d).bind fun y =>
    NoOverflow.bind ?_ fun _ => noOverflow_ok s _
  unfold jumpTarget
  split
  · exact noOverflow_ok s _
  · exact noOverflow_advance s _

theorem noOverflow_storeInput (s : State) (a v : Int) (rest : List Int) : NoOverflow s (storeInput s a v rest) :=
  (noOverflow_advance s _).bind fun _ => (noOverflow_memWrite s _ _ _).bind fun _ => noOverflow_ok s _

theorem noOverflow_emitOutput (s : State) (a : Param) : NoOverflow s (emitOutput s a) :=
  (noOverflow_readParam s a).bind fun _ => (noOverflow_advance s _).bind fun _ => noOverflow_ok s _

theorem noOverflow_adjustBase (s : State) (a : Param) : NoOverflow s (adjustBase s a) :=
  (noOverflow_readParam s a).bind fun _ => (noOverflow_checked s _).bind fun _ =>
    (noOverflow_advance s _).bind fun _ => noOverflow_ok s _

/-- What an instruction that ends in `conclude` can do. -/
theorem conclude_next {s t : State} {e : Except FaultCause State} (hn : NoOverflow s e) (h : conclude s e = .next t) :
    FaultTaken s t ∨ e = .ok t := by
  rcases conclude_cases h with h | ⟨c, hc, rfl⟩
  · exact .inr h
  · exact .inl ⟨c, rfl, hn c hc⟩

/-! ## The committed effects -/

/-- What two reads and a store commit (R62, R75, R76, R81, R82), for the value `r` stored. -/
def StoreCommit (s t : State) (a b p : Param) (r : Int) : Prop :=
  s.Readable a ∧ s.Readable b ∧ s.Writable p ∧ InRange s.intModel (s.pc + 4) ∧
    t = { s with mem := Memory.write s.mem (s.address p).toNat r, pc := s.pc + 4 }

theorem execAdd_cases {a b p : Param} {s t : State} (h : execAdd a b p s = .next t) :
    FaultTaken s t ∨
      (InRange s.intModel (s.value a + s.value b) ∧ StoreCommit s t a b p (s.value a + s.value b)) := by
  rcases conclude_next (noOverflow_storeBinary s a b p fun _ _ => noOverflow_checked s _) h with h | h
  · exact .inl h
  · obtain ⟨h1, h2, h3, h4, r, hr, h5⟩ := storeBinary_eq_ok.mp h
    obtain ⟨hf, rfl⟩ := checked_eq_ok.mp hr
    exact .inr ⟨hf, h1, h2, h3, h4, h5⟩

theorem execMul_cases {a b p : Param} {s t : State} (h : execMul a b p s = .next t) :
    FaultTaken s t ∨
      (InRange s.intModel (s.value a * s.value b) ∧ StoreCommit s t a b p (s.value a * s.value b)) := by
  rcases conclude_next (noOverflow_storeBinary s a b p fun _ _ => noOverflow_checked s _) h with h | h
  · exact .inl h
  · obtain ⟨h1, h2, h3, h4, r, hr, h5⟩ := storeBinary_eq_ok.mp h
    obtain ⟨hf, rfl⟩ := checked_eq_ok.mp hr
    exact .inr ⟨hf, h1, h2, h3, h4, h5⟩

theorem execLt_cases {a b p : Param} {s t : State} (h : execLt a b p s = .next t) :
    FaultTaken s t ∨ StoreCommit s t a b p (truthWord (decide (s.value a < s.value b))) := by
  rcases conclude_next (noOverflow_storeBinary s a b p fun _ _ => noOverflow_ok s _) h with h | h
  · exact .inl h
  · obtain ⟨h1, h2, h3, h4, r, hr, h5⟩ := storeBinary_eq_ok.mp h
    cases hr
    exact .inr ⟨h1, h2, h3, h4, h5⟩

theorem execEq_cases {a b p : Param} {s t : State} (h : execEq a b p s = .next t) :
    FaultTaken s t ∨ StoreCommit s t a b p (truthWord (decide (s.value a = s.value b))) := by
  rcases conclude_next (noOverflow_storeBinary s a b p fun _ _ => noOverflow_ok s _) h with h | h
  · exact .inl h
  · obtain ⟨h1, h2, h3, h4, r, hr, h5⟩ := storeBinary_eq_ok.mp h
    cases hr
    exact .inr ⟨h1, h2, h3, h4, h5⟩

theorem execIn_cases {p : Param} {s t : State} (h : execIn p s = .next t) :
    FaultTaken s t ∨
      (s.Writable p ∧ s.inq = [] ∧ t = { s with status := .awaitingInput }) ∨
      (s.Writable p ∧ ∃ v rest, s.inq = v :: rest ∧ InRange s.intModel (s.pc + 2) ∧
        t = { s with mem := Memory.write s.mem (s.address p).toNat v, pc := s.pc + 2, inq := rest }) := by
  unfold execIn at h
  split at h
  · next c hc => cases h; exact .inl ⟨c, rfl, noOverflow_writeAddr s 1 p c hc⟩
  · next ad ha =>
    obtain ⟨hw, rfl⟩ := writeAddr_eq_ok.mp ha
    split at h
    · next hq => cases h; exact .inr (.inl ⟨hw, hq, rfl⟩)
    · next v rest hq =>
      rcases conclude_next (noOverflow_storeInput s _ _ _) h with h | h
      · exact .inl h
      · obtain ⟨h1, -, h2⟩ := storeInput_eq_ok.mp h
        exact .inr (.inr ⟨hw, v, rest, hq, h1, h2⟩)

theorem execOut_cases {a : Param} {s t : State} (h : execOut a s = .next t) :
    FaultTaken s t ∨
      (s.Readable a ∧ InRange s.intModel (s.pc + 2) ∧
        t = { s with outbuf := s.outbuf ++ [s.value a], pc := s.pc + 2, status := .suspended }) :=
  (conclude_next (noOverflow_emitOutput s a) h).imp id emitOutput_eq_ok.mp

/-- What a conditional jump commits (R79, R80), taken or not. -/
def JumpCommit (s t : State) (c d : Param) (taken : Prop) : Prop :=
  s.Readable c ∧ s.Readable d ∧
    ((taken ∧ t = { s with pc := s.value d }) ∨
      (¬taken ∧ InRange s.intModel (s.pc + 3) ∧ t = { s with pc := s.pc + 3 }))

theorem execJt_cases {c d : Param} {s t : State} (h : execJt c d s = .next t) :
    FaultTaken s t ∨ JumpCommit s t c d (s.value c ≠ 0) := by
  rcases conclude_next (noOverflow_jumpWhen s c d _) h with h | h
  · exact .inl h
  · right; simpa [JumpCommit] using jumpWhen_eq_ok.mp h

theorem execJf_cases {c d : Param} {s t : State} (h : execJf c d s = .next t) :
    FaultTaken s t ∨ JumpCommit s t c d (s.value c = 0) := by
  rcases conclude_next (noOverflow_jumpWhen s c d _) h with h | h
  · exact .inl h
  · right; simpa [JumpCommit] using jumpWhen_eq_ok.mp h

theorem execArb_cases {a : Param} {s t : State} (h : execArb a s = .next t) :
    FaultTaken s t ∨
      (s.Readable a ∧ InRange s.intModel (s.rb + s.value a) ∧ InRange s.intModel (s.pc + 2) ∧
        t = { s with rb := s.rb + s.value a, pc := s.pc + 2 }) :=
  (conclude_next (noOverflow_adjustBase s a) h).imp id adjustBase_eq_ok.mp

theorem execHlt_cases {s t : State} (h : execHlt s = .next t) : t = { s with halted := true, status := .halted } := by
  cases h; rfl

/-! ## Every outcome is a next state -/

theorem conclude_answers (s : State) (e : Except FaultCause State) : ∃ t, conclude s e = .next t := by
  cases e <;> exact ⟨_, rfl⟩

theorem execIn_answers (p : Param) (s : State) : ∃ t, execIn p s = .next t := by
  unfold execIn
  split
  · exact ⟨_, rfl⟩
  · split
    · exact ⟨_, rfl⟩
    · exact conclude_answers _ _

end Sys2Proof.Machine
end

