-- ==== Sys2Proof/Laws/Step.lean ====
section
/-! SUPPORT. What a fetch and a step can do, said once (spec R89 to R92). -/

namespace Sys2Proof.Machine

theorem fetchWord_eq_ok {s : State} {w : Int} : fetchWord s = .ok w ↔ 0 ≤ s.pc ∧ w = s.cell s.pc := memRead_eq_ok

theorem fetchParam_eq_ok {s : State} {n k : Nat} {r : Int} :
    fetchParam s n k = .ok r ↔
      (k ≤ n ∧ InRange s.intModel (s.pc + (k : Int)) ∧ 0 ≤ s.pc + (k : Int) ∧ r = s.cell (s.pc + (k : Int))) ∨
      (n < k ∧ r = 0) := by
  unfold fetchParam
  split
  · next h => simp [h, checked_eq_ok, memRead_eq_ok, State.cell, Nat.not_lt.mpr h, and_assoc]
  · next h => simp [h, Nat.not_le.mp h, eq_comm (b := r)]

/-- Everything a fetched instruction says about the state it was fetched in (R50, R58, R90). -/
theorem fetchInstr_eq_ok {s : State} {i : Instr} :
    fetchInstr s = .ok i ↔
      0 ≤ s.pc ∧ ∃ d r1 r2 r3, decodeWord (s.cell s.pc) = .ok d ∧ fetchParam s d.nparams 1 = .ok r1 ∧
        fetchParam s d.nparams 2 = .ok r2 ∧ fetchParam s d.nparams 3 = .ok r3 ∧ i = d.toInstr r1 r2 r3 := by
  simp only [fetchInstr, bind_eq_ok, fetchWord_eq_ok]
  constructor
  · rintro ⟨w, ⟨hpc, rfl⟩, h⟩
    refine ⟨hpc, ?_⟩
    split at h
    · cases h
    · next d hd =>
      simp only [bind_eq_ok] at h
      obtain ⟨r1, h1, r2, h2, r3, h3, h4⟩ := h
      cases h4
      exact ⟨d, r1, r2, r3, hd, h1, h2, h3, rfl⟩
  · rintro ⟨hpc, d, r1, r2, r3, hd, h1, h2, h3, rfl⟩
    refine ⟨_, ⟨hpc, rfl⟩, ?_⟩
    simp only [hd, h1, h2, h3, ok_bind]

theorem noOverflow_fetchParam (s : State) (n k : Nat) : NoOverflow s (fetchParam s n k) := by
  unfold fetchParam
  split
  · exact (noOverflow_checked s _).bind fun _ => noOverflow_memRead s _ _
  · exact noOverflow_ok s _

theorem noOverflow_fetchInstr (s : State) : NoOverflow s (fetchInstr s) := by
  refine (noOverflow_memRead s s.mem s.pc).bind fun w => ?_
  split
  · next e he => intro c hc _; cases hc; cases e <;> simp [decodeCause, FaultCause.code]
  · exact (noOverflow_fetchParam s _ _).bind fun _ => (noOverflow_fetchParam s _ _).bind fun _ =>
      (noOverflow_fetchParam s _ _).bind fun _ => noOverflow_ok s _

theorem step_of_stopped {s : State} (h : s.stopped = true) : step s = .next s := by
  simp [step, h]

theorem step_of_fetch {s : State} {i : Instr} (h : s.stopped = false) (hi : fetchInstr s = .ok i) :
    step s = exec i s.resume := by
  simp [step, h, runInstruction, hi]

theorem step_of_fetch_error {s : State} {c : FaultCause} (h : s.stopped = false) (hc : fetchInstr s = .error c) :
    step s = .next (s.takeFault c) := by
  simp [step, h, runInstruction, hc]

/-- A step from a resumed machine is the step from the machine, unless it is stopped. -/
theorem step_resume {s : State} (h : s.stopped = false) : step s.resume = step s := by
  simp [step, h, runInstruction]

/-- Everything a step can do: nothing, a fault of fetch, decode or parameter words, or an instruction. -/
theorem step_cases {s t : State} (h : step s = .next t) :
    (s.stopped = true ∧ t = s) ∨
    (s.stopped = false ∧ FaultTaken s t) ∨
    (s.stopped = false ∧ ∃ i, fetchInstr s = .ok i ∧ exec i s.resume = .next t) := by
  cases hs : s.stopped with
  | true => rw [step_of_stopped hs] at h; cases h; exact .inl ⟨rfl, rfl⟩
  | false =>
    cases hf : fetchInstr s with
    | error c =>
      rw [step_of_fetch_error hs hf] at h
      cases h
      exact .inr (.inl ⟨rfl, c, rfl, noOverflow_fetchInstr s c hf⟩)
    | ok i => rw [step_of_fetch hs hf] at h; exact .inr (.inr ⟨rfl, i, rfl, h⟩)

/-- No instruction changes the integer model (R5). -/
theorem exec_intModel {i : Instr} {s t : State} (h : exec i s = .next t) : t.intModel = s.intModel := by
  have fault : FaultTaken s t → t.intModel = s.intModel := by rintro ⟨c, rfl, _⟩; rfl
  cases i with
  | add a b p => rcases execAdd_cases h with h | ⟨_, _, _, _, _, rfl⟩; exacts [fault h, rfl]
  | mul a b p => rcases execMul_cases h with h | ⟨_, _, _, _, _, rfl⟩; exacts [fault h, rfl]
  | inp p u2 u3 => rcases execIn_cases h with h | ⟨_, _, rfl⟩ | ⟨_, _, _, _, _, rfl⟩; exacts [fault h, rfl, rfl]
  | out a u2 u3 => rcases execOut_cases h with h | ⟨_, _, rfl⟩; exacts [fault h, rfl]
  | jt c d u3 => rcases execJt_cases h with h | ⟨_, _, ⟨_, rfl⟩ | ⟨_, _, rfl⟩⟩; exacts [fault h, rfl, rfl]
  | jf c d u3 => rcases execJf_cases h with h | ⟨_, _, ⟨_, rfl⟩ | ⟨_, _, rfl⟩⟩; exacts [fault h, rfl, rfl]
  | lt a b p => rcases execLt_cases h with h | ⟨_, _, _, _, rfl⟩; exacts [fault h, rfl]
  | eq a b p => rcases execEq_cases h with h | ⟨_, _, _, _, rfl⟩; exacts [fault h, rfl]
  | arb a u2 u3 => rcases execArb_cases h with h | ⟨_, _, _, rfl⟩; exacts [fault h, rfl]
  | hlt u1 u2 u3 => rw [execHlt_cases h]

/-- No step changes the integer model (R5). -/
theorem step_intModel {s t : State} (h : step s = .next t) : t.intModel = s.intModel := by
  rcases step_cases h with ⟨_, rfl⟩ | ⟨_, c, rfl, _⟩ | ⟨_, i, _, hi⟩
  · rfl
  · rfl
  · exact (exec_intModel hi : t.intModel = s.resume.intModel)

end Sys2Proof.Machine
end

