-- ==== Sys2Proof/Laws/PerInstr.lean ====
section
/-! SUPPORT. Facts made for each constructor of `Instr`. The family `EncodedWidth`: the cells of an instruction are as many as
its width, which its opcode alone fixes (spec R50, R62, R67). -/

namespace Sys2Proof.Laws.EncodedWidth

/-- The encoded instruction has `width` cells, from 1 to 4, one for its word and one for each parameter. -/
def Statement (i : Instr) : Prop :=
  (encode i).length = i.width ∧ 1 ≤ i.width ∧ i.width ≤ 4 ∧ i.paramWords.length = i.decoded.nparams

/-- R67: instructions have 1, 2, 3 or 4 cells. -/
theorem width_bounds (f : Format) : 1 ≤ f.width ∧ f.width ≤ 4 := by cases f <;> decide

theorem add (a b t : Param) : Statement (.add a b t) := ⟨rfl, (width_bounds _).1, (width_bounds _).2, rfl⟩

theorem mul (a b t : Param) : Statement (.mul a b t) := ⟨rfl, (width_bounds _).1, (width_bounds _).2, rfl⟩

theorem inp (t : Param) (u2 u3 : Mode) : Statement (.inp t u2 u3) := ⟨rfl, (width_bounds _).1, (width_bounds _).2, rfl⟩

theorem out (a : Param) (u2 u3 : Mode) : Statement (.out a u2 u3) := ⟨rfl, (width_bounds _).1, (width_bounds _).2, rfl⟩

theorem jt (c d : Param) (u3 : Mode) : Statement (.jt c d u3) := ⟨rfl, (width_bounds _).1, (width_bounds _).2, rfl⟩

theorem jf (c d : Param) (u3 : Mode) : Statement (.jf c d u3) := ⟨rfl, (width_bounds _).1, (width_bounds _).2, rfl⟩

theorem lt (a b t : Param) : Statement (.lt a b t) := ⟨rfl, (width_bounds _).1, (width_bounds _).2, rfl⟩

theorem eq (a b t : Param) : Statement (.eq a b t) := ⟨rfl, (width_bounds _).1, (width_bounds _).2, rfl⟩

theorem arb (a : Param) (u2 u3 : Mode) : Statement (.arb a u2 u3) := ⟨rfl, (width_bounds _).1, (width_bounds _).2, rfl⟩

theorem hlt (u1 u2 u3 : Mode) : Statement (.hlt u1 u2 u3) := ⟨rfl, (width_bounds _).1, (width_bounds _).2, rfl⟩

end Sys2Proof.Laws.EncodedWidth
end

