-- ==== Sys2Proof/Laws/Ring.lean ====
section
/-! SUPPORT. What the host's `feed` and a step of the ring can do (spec R88, R122 to R127). -/

namespace Sys2Proof.Machine

/-! ## feed -/

/-- Everything a feed can do: it is turned away and changes nothing, or every value fits and is appended. -/
theorem afterFeed_cases (s : State) (vs : List Int) :
    ((∃ v ∈ vs, ¬InRange s.intModel v) ∧ afterFeed s vs = s) ∨
    ((∀ v ∈ vs, InRange s.intModel v) ∧ afterFeed s vs = { s with inq := s.inq ++ vs }) := by
  unfold afterFeed feed
  cases h : vs.find? (fun v => !fits s.intModel v) with
  | some v => exact .inl ⟨⟨v, List.mem_of_find?_eq_some h, by simpa [fits_eq_false_iff] using List.find?_some h⟩, rfl⟩
  | none => exact .inr ⟨fun v hv => fits_eq_true_iff.mp (by simpa using List.find?_eq_none.mp h v hv), rfl⟩

/-- A feed whose values fit appends them. -/
theorem afterFeed_of_inRange {s : State} {vs : List Int} (h : ∀ v ∈ vs, InRange s.intModel v) :
    afterFeed s vs = { s with inq := s.inq ++ vs } := by
  rcases afterFeed_cases s vs with ⟨⟨v, hv, hn⟩, _⟩ | ⟨_, h'⟩
  · exact absurd (h v hv) hn
  · exact h'

@[simp] theorem afterFeed_mem (s : State) (vs : List Int) : (afterFeed s vs).mem = s.mem := by
  rcases afterFeed_cases s vs with ⟨_, h⟩ | ⟨_, h⟩ <;> rw [h]
@[simp] theorem afterFeed_pc (s : State) (vs : List Int) : (afterFeed s vs).pc = s.pc := by
  rcases afterFeed_cases s vs with ⟨_, h⟩ | ⟨_, h⟩ <;> rw [h]
@[simp] theorem afterFeed_rb (s : State) (vs : List Int) : (afterFeed s vs).rb = s.rb := by
  rcases afterFeed_cases s vs with ⟨_, h⟩ | ⟨_, h⟩ <;> rw [h]
@[simp] theorem afterFeed_outbuf (s : State) (vs : List Int) : (afterFeed s vs).outbuf = s.outbuf := by
  rcases afterFeed_cases s vs with ⟨_, h⟩ | ⟨_, h⟩ <;> rw [h]
@[simp] theorem afterFeed_halted (s : State) (vs : List Int) : (afterFeed s vs).halted = s.halted := by
  rcases afterFeed_cases s vs with ⟨_, h⟩ | ⟨_, h⟩ <;> rw [h]
@[simp] theorem afterFeed_status (s : State) (vs : List Int) : (afterFeed s vs).status = s.status := by
  rcases afterFeed_cases s vs with ⟨_, h⟩ | ⟨_, h⟩ <;> rw [h]
@[simp] theorem afterFeed_fault (s : State) (vs : List Int) : (afterFeed s vs).fault = s.fault := by
  rcases afterFeed_cases s vs with ⟨_, h⟩ | ⟨_, h⟩ <;> rw [h]
@[simp] theorem afterFeed_intModel (s : State) (vs : List Int) : (afterFeed s vs).intModel = s.intModel := by
  rcases afterFeed_cases s vs with ⟨_, h⟩ | ⟨_, h⟩ <;> rw [h]

/-! ## The pieces of a ring step -/

@[simp] theorem Ring.place_machines (r : Ring) (m : State) : (r.place m).machines = r.machines.set r.turn m := rfl
@[simp] theorem Ring.place_turn (r : Ring) (m : State) : (r.place m).turn = r.turn := rfl
@[simp] theorem Ring.place_round (r : Ring) (m : State) : (r.place m).round = r.round := rfl
@[simp] theorem Ring.place_progress (r : Ring) (m : State) : (r.place m).progress = r.progress := rfl
@[simp] theorem Ring.place_verdict (r : Ring) (m : State) : (r.place m).verdict = r.verdict := rfl
@[simp] theorem Ring.route_turn (r : Ring) (vs : List Int) : (r.route vs).turn = r.turn := rfl
@[simp] theorem Ring.route_round (r : Ring) (vs : List Int) : (r.route vs).round = r.round := rfl
@[simp] theorem Ring.route_progress (r : Ring) (vs : List Int) : (r.route vs).progress = r.progress := rfl
@[simp] theorem Ring.route_verdict (r : Ring) (vs : List Int) : (r.route vs).verdict = r.verdict := rfl
@[simp] theorem Ring.pass_machines (r : Ring) (b : Bool) : (r.pass b).machines = r.machines := rfl
@[simp] theorem Ring.pass_turn (r : Ring) (b : Bool) : (r.pass b).turn = r.turn + 1 := rfl
@[simp] theorem Ring.pass_round (r : Ring) (b : Bool) : (r.pass b).round = r.round := rfl
@[simp] theorem Ring.pass_progress (r : Ring) (b : Bool) : (r.pass b).progress = (r.progress || b) := rfl
@[simp] theorem Ring.pass_verdict (r : Ring) (b : Bool) : (r.pass b).verdict = r.verdict := rfl

/-- The machine at a place after routing (R124): fed where it is the successor, as it was elsewhere. -/
theorem Ring.route_getElem? (r : Ring) (vs : List Int) (j : Nat) :
    (r.route vs).machines[j]? =
      if (r.turn + 1) % r.machines.length = j then r.machines[j]?.map (afterFeed · vs) else r.machines[j]? := by
  simp only [Ring.route, List.getElem?_modify]
  split <;> simp

/-- The end of a round changes no machine. -/
@[simp] theorem Ring.endRound_machines (r : Ring) : r.endRound.machines = r.machines := by
  unfold Ring.endRound
  split
  · rfl
  · split <;> rfl

/-! ## What a ring step can do -/

theorem Ring.step_of_done {r : Ring} {v : RingVerdict} (h : r.verdict = some v) : r.step = r := by
  simp [Ring.step, h]

theorem Ring.step_of_end {r : Ring} (h : r.verdict = none) (hm : r.machines[r.turn]? = none) : r.step = r.endRound := by
  simp [Ring.step, h, hm]

theorem Ring.step_of_halted {r : Ring} {m : State} (h : r.verdict = none) (hm : r.machines[r.turn]? = some m)
    (hh : isHalted m = true) : r.step = r.pass false := by
  simp [Ring.step, h, hm, hh]

theorem Ring.step_of_live {r : Ring} {m t : State} (h : r.verdict = none) (hm : r.machines[r.turn]? = some m)
    (hh : isHalted m = false) (ht : Sys2Proof.Machine.step m = .next t) : r.step = r.afterStep t (report t) := by
  simp [Ring.step, h, hm, hh, ht]

end Sys2Proof.Machine
end

