-- ==== Sys2Proof/Tests/Slice0.lean ====
section
/-! SUPPORT. Tests: the well-formedness checks, decoding of words written out from the spec's encodings, single steps of the
spec's own vectors (95_test_vectors.md, each named), and, for every obligation with hypotheses, concrete states and operands
that meet them, at the boundaries of each clause. -/

open Sys2Proof Sys2Proof.Machine

namespace Sys2Proof.Tests

/-! ## Well-formedness (R61): an immediate write target is refused -/

theorem test_add_refuses_immediate_target :
    (Instr.add ⟨.position, 5⟩ ⟨.position, 6⟩ ⟨.immediate, 7⟩).wellFormed = false := by decide
theorem test_mul_refuses_immediate_target :
    (Instr.mul ⟨.position, 5⟩ ⟨.position, 6⟩ ⟨.immediate, 7⟩).wellFormed = false := by decide
theorem test_inp_refuses_immediate_target : (Instr.inp ⟨.immediate, 7⟩ .position .position).wellFormed = false := by decide
theorem test_lt_refuses_immediate_target :
    (Instr.lt ⟨.immediate, 5⟩ ⟨.relative, 6⟩ ⟨.immediate, 7⟩).wellFormed = false := by decide
theorem test_eq_refuses_immediate_target :
    (Instr.eq ⟨.immediate, 5⟩ ⟨.relative, 6⟩ ⟨.immediate, 7⟩).wellFormed = false := by decide
theorem test_immediate_reads_are_well_formed :
    (Instr.add ⟨.immediate, 5⟩ ⟨.immediate, 6⟩ ⟨.relative, -7⟩).wellFormed = true ∧
    (Instr.out ⟨.immediate, 5⟩ .immediate .relative).wellFormed = true := by decide

/-! ## Decoding: cells written out from R50, R51, R55, R64 for each constructor; Part 2 of the vectors -/

/-- R72's example `ADD [26], #-4, [26]`. -/
theorem test_decode_add : decode [1001, 26, -4, 26] = .ok (.add ⟨.position, 26⟩ ⟨.immediate, -4⟩ ⟨.position, 26⟩, []) := by
  decide
/-- P2: `MUL [rb+1], [rb+0], [rb+1]`. -/
theorem test_decode_mul :
    decode [22202, 1, 0, 1, 21201] = .ok (.mul ⟨.relative, 1⟩ ⟨.relative, 0⟩ ⟨.relative, 1⟩, [21201]) := by decide
theorem test_decode_inp : decode [203, -2] = .ok (.inp ⟨.relative, -2⟩ .position .position, []) := by decide
theorem test_decode_out : decode [104, -1, 99] = .ok (.out ⟨.immediate, -1⟩ .position .position, [99]) := by decide
theorem test_decode_jt : decode [11105, 1, 46] = .ok (.jt ⟨.immediate, 1⟩ ⟨.immediate, 46⟩ .immediate, []) := by decide
theorem test_decode_jf : decode [1206, 0, 22] = .ok (.jf ⟨.relative, 0⟩ ⟨.immediate, 22⟩ .position, []) := by decide
theorem test_decode_lt : decode [107, 8, 21, 20] = .ok (.lt ⟨.immediate, 8⟩ ⟨.position, 21⟩ ⟨.position, 20⟩, []) := by decide
theorem test_decode_eq : decode [20008, 1, 2, 3] = .ok (.eq ⟨.position, 1⟩ ⟨.position, 2⟩ ⟨.relative, 3⟩, []) := by decide
theorem test_decode_arb : decode [22209, 7] = .ok (.arb ⟨.relative, 7⟩ .relative .relative, []) := by decide
theorem test_decode_hlt : decode [10099, -1] = .ok (.hlt .position .position .immediate, [-1]) := by decide

/-- S7: `encode(3, 1, 0, 0) = 103` does not round-trip. -/
theorem test_reject_immediate_target : decodeWord 103 = .error (.immediateWriteTarget 103 1) := by decide
theorem test_reject_immediate_target_before_other_digits : decodeWord 20103 = .error (.immediateWriteTarget 20103 1) := by decide
theorem test_reject_opcode : decodeWord 98 = .error (.illegalOpcode 98) ∧ decodeWord (-99) = .error (.illegalOpcode (-99)) := by
  decide
theorem test_reject_opcode_before_high_digit : decodeWord 100010 = .error (.illegalOpcode 100010) := by decide
theorem test_reject_high_digit : decodeWord 100099 = .error (.illegalMode 100099 none) := by decide
theorem test_reject_unused_mode_digit : decodeWord 399 = .error (.illegalMode 399 (some 1)) := by decide
theorem test_reject_mode_digit_two : decodeWord 3004 = .error (.illegalMode 3004 (some 2)) := by decide
theorem test_reject_mode_digit_three : decodeWord 30001 = .error (.illegalMode 30001 (some 3)) := by decide
theorem test_reject_truncated : decode [1105, 1] = .error .truncated ∧ decode [] = .error .truncated := by decide

/-! ## The host's numbering of bits -/

theorem test_table_word_add : decodeTableWord 256 1101 =
    some (.add ⟨.immediate, 0⟩ ⟨.immediate, 0⟩ ⟨.position, 0⟩) := by decide
theorem test_table_word_negative_operand : decodeTableWord 128 (104 + 2 ^ 64 * (2 ^ 64 - 1)) =
    some (.out ⟨.immediate, -1⟩ .position .position) := by decide
theorem test_table_word_rejects : decodeTableWord 64 98 = none := by decide
theorem test_fetch_word_is_fetched :
    fetchInstr (State.reset.withFetchWord 64 99) = .ok (.hlt .position .position .position) := by decide

/-! ## Single steps from the spec's vectors -/

/-- A machine right after `load` of these cells. -/
def machine (model : IntModel) (cells : List Int) : State :=
  { State.resetUnder model with mem := Memory.writeList [] 0 cells }

/-- The machine after a step. -/
def stepped (s : State) : State :=
  match step s with
  | .next t => t
  | .fault _ => s
  | .refused _ => s

/-- A step that faults changes nothing but `status` and the record (R111). -/
def faultedBy (s : State) (c : FaultCause) (word : Option Int) : State :=
  { s with status := .faulted, fault := some { cause := c, pc := s.pc, word := word } }

/-- A3: a source cell is the target too. -/
theorem test_add_doubles : (stepped (machine .unbounded [1, 5, 5, 5, 0, 21])).cell 5 = 42 := by decide
/-- A10b: the overflow corner under `I64Checked`. -/
theorem test_add_overflow : stepped (machine .i64Checked [1101, 9223372036854775807, 1, 0]) =
    faultedBy (machine .i64Checked [1101, 9223372036854775807, 1, 0]) (.overflow 9223372036854775808) (some 1101) := by decide
/-- A15. -/
theorem test_mul_sign : (stepped (machine .i64Checked [1102, -3, 7, 4])).cell 4 = -21 := by decide
/-- A16a: 2^64, exact. -/
theorem test_mul_exact : (stepped (machine .unbounded [1102, 4294967296, 4294967296, 0])).cell 0 = 18446744073709551616 := by
  decide
/-- I2: the target is relative, the queue loses its head. -/
theorem test_in_relative : (fun t : State => (t.cell 5, t.inq, t.pc))
    (stepped { machine .unbounded [203, -2] with rb := 7, inq := [42] }) = (42, [], 2) := by decide
/-- I3: starvation changes `status` alone. -/
theorem test_in_starves : stepped (machine .unbounded [3, 5]) = { machine .unbounded [3, 5] with status := .awaitingInput } := by
  decide
/-- O3. -/
theorem test_out_relative : (fun t : State => (t.outbuf, t.pc, t.status))
    (stepped { machine .unbounded [204, -1] with rb := 1 }) = ([204], 2, .suspended) := by decide
/-- O4. -/
theorem test_out_negative_address : stepped (machine .unbounded [4, -2]) =
    faultedBy (machine .unbounded [4, -2]) (.invalidAddress (-2)) (some 4) := by decide
/-- J3: any condition but 0 jumps. -/
theorem test_jt_negative_condition : (stepped (machine .unbounded [1105, -1, 9])).pc = 9 := by decide
/-- J6: the target of an untaken jump is resolved. -/
theorem test_jt_untaken_target_faults : stepped (machine .unbounded [105, 0, -1]) =
    faultedBy (machine .unbounded [105, 0, -1]) (.invalidAddress (-1)) (some 105) := by decide
/-- J11. -/
theorem test_jf_falls_through : (stepped (machine .unbounded [1106, -1, 0])).pc = 3 := by decide
/-- J12. -/
theorem test_jf_jumps : (stepped (machine .unbounded [6, 3, 4, 0, 9])).pc = 9 := by decide
/-- C4: the comparison is signed. -/
theorem test_lt_signed : (stepped (machine .unbounded [1107, -1, 0, 5])).cell 5 = 1 := by decide
/-- C2. -/
theorem test_lt_equal : (stepped (machine .unbounded [1107, 8, 8, 3])).cell 3 = 0 := by decide
/-- C7. -/
theorem test_eq_relative_target : (stepped { machine .unbounded [21108, 3, 3, 0] with rb := 4 }).cell 4 = 1 := by decide
/-- C9: an immediate target is found by the decoder. -/
theorem test_lt_immediate_target : stepped (machine .unbounded [10107, 1, 2, 3]) =
    faultedBy (machine .unbounded [10107, 1, 2, 3]) (.immediateWriteTarget 10107 3) (some 10107) := by decide
/-- B2: the operand is read at the old base. -/
theorem test_arb_old_base : (stepped { machine .unbounded [209, -1] with rb := 1 }).rb = 210 := by decide
/-- B3. -/
theorem test_arb_negative_base : (stepped (machine .unbounded [109, -5])).rb = -5 := by decide
/-- H5. -/
theorem test_hlt : (fun t : State => (t.halted, t.status, t.pc)) (stepped (machine .unbounded [99, -1, -1])) =
    (true, .halted, 0) := by decide
/-- H3. -/
theorem test_hlt_bad_mode_digit : stepped (machine .unbounded [399]) =
    faultedBy (machine .unbounded [399]) (.illegalMode 399 (some 1)) (some 399) := by decide
/-- T1, its third step: `pc + 2` is out of range. -/
theorem test_advance_overflow :
    stepped { machine .i64Checked [] with mem := [(9223372036854775806, 109)], pc := 9223372036854775806 } =
      faultedBy { machine .i64Checked [] with mem := [(9223372036854775806, 109)], pc := 9223372036854775806 }
        (.overflow 9223372036854775808) (some 109) := by decide
/-- E7, its second step: a fetch at a negative `pc` has no word. -/
theorem test_negative_fetch : stepped { machine .unbounded [1105, 1, -3] with pc := -3 } =
    faultedBy { machine .unbounded [1105, 1, -3] with pc := -3 } (.invalidAddress (-3)) none := by decide

/-! ## Witnesses: the hypotheses of each obligation are met, clause by clause, at the boundary of its range -/

theorem witness_DecodeVerdictOnEveryWord :
    (-1 : Int) < 0 ∧ (98 : Int).toNat % 100 ∉ opcodeNumbers ∧
    ((100001 : Int).toNat % 100 ∈ opcodeNumbers ∧ (100000 : Int) ≤ 100001) ∧
    (digit 30001 4 = 3 ∧ digit 30001 2 < 3 ∧ digit 30001 3 < 3) ∧
    (writeParamOfNumber (10001 % 100) = some 3 ∧ digit 10001 4 = 1) ∧
    (22299 % 100 ∈ opcodeNumbers ∧ writeParamOfNumber (22299 % 100) = none ∧ digit 22299 2 < 3 ∧ digit 22299 3 < 3 ∧
      digit 22299 4 < 3) := by decide

theorem witness_OpcodeMapAndFormats : (0 : Nat) ∉ opcodeNumbers ∧ (10 : Nat) ∉ opcodeNumbers ∧ (98 : Nat) ∉ opcodeNumbers := by
  decide

theorem witness_InstructionWordRoundTrip :
    (∀ k, (Decoded.mk .add .immediate .relative .relative).wparam = some k →
      (Decoded.mk .add .immediate .relative .relative).mode k ≠ some .immediate) ∧
    ((Decoded.mk .inp .immediate .position .position).wparam = some 1 ∧
      (Decoded.mk .inp .immediate .position .position).mode 1 = some .immediate) ∧
    decodeWord 22299 = .ok ⟨.hlt, .relative, .relative, .relative⟩ := by
  refine ⟨?_, by decide, by decide⟩
  intro k hk
  have : k = 3 := by simpa [Decoded.wparam, Opcode.format, Format.wparam] using hk.symm
  subst this
  decide

theorem witness_DecodeOfEncode : (Instr.inp ⟨.relative, -2⟩ .immediate .relative).wellFormed = true := by decide

theorem witness_EncodeOfDecode : decode [1105, -1, 9, 99] = .ok (.jt ⟨.immediate, -1⟩ ⟨.immediate, 9⟩ .position, [99]) := by
  decide

theorem witness_MemoryReadAfterWrite : Memory.wf [(0, 1), (7, -3)] = true ∧
    (∀ c ∈ ([(0, 1), (7, -3)] : Memory), c.1 ≠ (3 : Int).toNat) := by decide

/-- The ends of the range of `I64Checked` (R5). -/
theorem witness_InRange :
    InRange .i64Checked 9223372036854775807 ∧ InRange .i64Checked (-9223372036854775808) ∧
    ¬InRange .i64Checked 9223372036854775808 ∧ ¬InRange .i64Checked (-9223372036854775809) ∧
    InRange .unbounded 9223372036854775808 := by simp [InRange]

/-- A machine under `I64Checked` whose relative base is the greatest integer: `[rb+0]` resolves and `[rb+1]` does not. -/
def topBase : State := { machine .i64Checked [1105, 1, 0] with rb := 9223372036854775807, inq := [5] }

/-- A machine one cell below the top of the address range of `I64Checked`: `pc + 1` is in range and `pc + 2` is not. -/
def topPc : State := { topBase with pc := 9223372036854775806 }

theorem witness_ReadParamByMode : InRange topBase.intModel (topBase.rb + 0) ∧ ¬InRange topBase.intModel (topBase.rb + 1) := by
  simp [InRange, topBase, machine, State.resetUnder]

theorem witness_WriteAddrByMode : InRange topBase.intModel (topBase.rb + 0) ∧ ¬InRange topBase.intModel (topBase.rb + 1) :=
  witness_ReadParamByMode

/-- Readable and writable parameters of every mode, at the least and the greatest address. -/
theorem witness_parameters :
    topBase.Readable ⟨.position, 0⟩ ∧ topBase.Readable ⟨.immediate, -1⟩ ∧ topBase.Readable ⟨.relative, 0⟩ ∧
    topBase.Readable ⟨.relative, -9223372036854775807⟩ ∧ topBase.Writable ⟨.position, 0⟩ ∧ topBase.Writable ⟨.relative, 0⟩ := by
  simp [State.Readable, State.Writable, State.Reachable, InRange, topBase, machine, State.resetUnder]

/-- Parameters whose address faults: negative in position mode, negative in relative mode, and overflowing. -/
theorem witness_address_faults :
    topBase.AddressFault ⟨.position, -1⟩ (.invalidAddress (-1)) ∧
    topBase.AddressFault ⟨.relative, -9223372036854775808⟩ (.invalidAddress (-1)) ∧
    topBase.AddressFault ⟨.relative, 1⟩ (.overflow 9223372036854775808) := by
  simp [State.AddressFault, InRange, topBase, machine, State.resetUnder]

theorem witness_AddMulAreExact :
    (topBase.Readable ⟨.immediate, 9223372036854775806⟩ ∧ topBase.Readable ⟨.immediate, 1⟩ ∧
      topBase.Writable ⟨.relative, 0⟩) ∧
    (InRange topBase.intModel (topBase.value ⟨.immediate, 9223372036854775806⟩ + topBase.value ⟨.immediate, 1⟩) ∧
      InRange topBase.intModel (topBase.value ⟨.immediate, 9223372036854775806⟩ * topBase.value ⟨.immediate, 1⟩) ∧
      InRange topBase.intModel (topBase.pc + 4)) ∧
    ¬InRange topBase.intModel (topBase.value ⟨.immediate, 9223372036854775806⟩ + topBase.value ⟨.immediate, 2⟩) ∧
    ¬InRange topBase.intModel (topBase.value ⟨.immediate, 9223372036854775806⟩ * topBase.value ⟨.immediate, 2⟩) := by
  simp [State.Readable, State.Writable, State.Reachable, State.value, InRange, topBase, machine, State.resetUnder]

theorem witness_LtEqWriteTruth :
    topBase.Readable ⟨.immediate, -1⟩ ∧ topBase.Readable ⟨.position, 0⟩ ∧ topBase.Writable ⟨.relative, 0⟩ ∧
    InRange topBase.intModel (topBase.pc + 4) ∧ topBase.value ⟨.immediate, -1⟩ < topBase.value ⟨.position, 0⟩ := by
  refine ⟨witness_parameters.2.1, witness_parameters.1, witness_parameters.2.2.2.2.2, ?_, by decide⟩
  simp [InRange, topBase, machine, State.resetUnder]

theorem witness_InStoresQueueHead :
    topBase.Writable ⟨.position, 0⟩ ∧ topBase.inq = 5 :: [] ∧ InRange topBase.intModel (topBase.pc + 2) := by
  refine ⟨witness_parameters.2.2.2.2.1, rfl, ?_⟩
  simp [InRange, topBase, machine, State.resetUnder]

theorem witness_OutAppendsAndSuspends :
    topBase.Readable ⟨.relative, 0⟩ ∧ InRange topBase.intModel (topBase.pc + 2) := by
  refine ⟨witness_parameters.2.2.1, ?_⟩
  simp [InRange, topBase, machine, State.resetUnder]

/-- A taken and an untaken jump, and a jump that is taken where `pc + 3` is out of range. -/
theorem witness_jumps :
    topBase.Readable ⟨.immediate, -1⟩ ∧ topBase.value ⟨.immediate, -1⟩ ≠ 0 ∧ topBase.value ⟨.position, 3⟩ = 0 ∧
    InRange topBase.intModel (topBase.pc + 3) ∧ topPc.Readable ⟨.immediate, 1⟩ ∧ topPc.value ⟨.immediate, 1⟩ ≠ 0 ∧
    ¬InRange topPc.intModel (topPc.pc + 3) := by
  refine ⟨witness_parameters.2.1, by decide, by decide, ?_⟩
  simp [State.Readable, State.Reachable, State.value, InRange, topPc, topBase, machine, State.resetUnder]

theorem witness_ArbAddsToBase :
    topBase.Readable ⟨.immediate, 0⟩ ∧ InRange topBase.intModel (topBase.rb + topBase.value ⟨.immediate, 0⟩) ∧
    InRange topBase.intModel (topBase.pc + 2) ∧ ¬InRange topBase.intModel (topBase.rb + topBase.value ⟨.immediate, 1⟩) := by
  simp [State.Readable, State.Reachable, State.value, InRange, topBase, machine, State.resetUnder]

/-- The last clause of each fault order: everything resolves and the advance of `pc` is out of range. -/
theorem witness_StoreInstrFaultOrder :
    topPc.Readable ⟨.immediate, 2⟩ ∧ topPc.Readable ⟨.immediate, 3⟩ ∧ topPc.Writable ⟨.position, 0⟩ ∧
    ¬InRange topPc.intModel (topPc.pc + 4) ∧
    InRange topPc.intModel (topPc.value ⟨.immediate, 2⟩ + topPc.value ⟨.immediate, 3⟩) ∧
    InRange topPc.intModel (topPc.value ⟨.immediate, 2⟩ * topPc.value ⟨.immediate, 3⟩) := by
  simp [State.Readable, State.Writable, State.Reachable, State.value, InRange, topPc, topBase, machine, State.resetUnder]

theorem witness_JumpFaultOrder :
    topPc.Readable ⟨.immediate, 0⟩ ∧ topPc.Readable ⟨.immediate, 1⟩ ∧ ¬InRange topPc.intModel (topPc.pc + 3) ∧
    topPc.value ⟨.immediate, 0⟩ = 0 ∧ topPc.value ⟨.immediate, 1⟩ ≠ 0 := by
  simp [State.Readable, State.Reachable, State.value, InRange, topPc, topBase, machine, State.resetUnder]

theorem witness_InFaultOrder :
    (topPc.Writable ⟨.position, 0⟩ ∧ topPc.inq ≠ [] ∧ ¬InRange topPc.intModel (topPc.pc + 2)) ∧
    State.reset.Writable ⟨.position, 0⟩ ∧ State.reset.inq = [] := by
  simp [State.Writable, State.Reachable, InRange, topPc, topBase, machine, State.reset, State.resetUnder]

theorem witness_OutArbFaultOrder :
    topPc.Readable ⟨.immediate, 0⟩ ∧ ¬InRange topPc.intModel (topPc.pc + 2) ∧
    InRange topPc.intModel (topPc.rb + topPc.value ⟨.immediate, 0⟩) := by
  simp [State.Readable, State.Reachable, State.value, InRange, topPc, topBase, machine, State.resetUnder]

/-- A negative fetch; a word that does not decode; and an `OUT` at the top whose parameter word has no address (T2). -/
theorem witness_FetchFaultOrder :
    ({ topBase with pc := -1 } : State).pc < 0 ∧ decodeWord (State.reset.cell State.reset.pc) = .error (.illegalOpcode 0) ∧
    (decodeWord 104 = .ok ⟨.out, .immediate, .position, .position⟩ ∧
      Decoded.nparams ⟨.out, .immediate, .position, .position⟩ = 1 ∧
      ¬InRange .i64Checked ((9223372036854775807 : Int) + (1 : Nat))) := by
  refine ⟨by decide, by decide, by decide, by decide, ?_⟩
  simp [InRange]

theorem witness_FatalFaultIsPreciseAndAbsorbing :
    State.reset.stopped = false ∧ step State.reset = .next (stepped State.reset) ∧
    (stepped State.reset).status = .faulted := ⟨rfl, rfl, by decide⟩

/-- I3, the empty queue. -/
def starving : State := machine .unbounded [3, 5]

theorem witness_StarvationIsPreciseAndResumable :
    starving.stopped = false ∧ step starving = .next (stepped starving) ∧ (stepped starving).status = .awaitingInput :=
  ⟨rfl, rfl, by decide⟩

theorem witness_HaltedMachineStaysHalted :
    (stepped (machine .unbounded [99])).status = .halted ∧ (stepped (machine .unbounded [99])).stopped = true := by decide

theorem witness_StepRunsDecodedInstruction :
    topBase.stopped = false ∧ 0 ≤ topBase.pc ∧
    decode (cellsFrom topBase.mem topBase.pc.toNat 4) = .ok (.jt ⟨.immediate, 1⟩ ⟨.immediate, 0⟩ .position, [0]) ∧
    (∀ k : Nat, 1 ≤ k → k < (Instr.jt ⟨.immediate, 1⟩ ⟨.immediate, 0⟩ .position).width →
      InRange topBase.intModel (topBase.pc + k)) := by
  refine ⟨rfl, by decide, by decide, fun k h1 h2 => ?_⟩
  have : k < 3 := h2
  simp only [InRange, topBase, machine, State.resetUnder]
  omega

/-- A step from a machine that has not stopped, for each of the five results. -/
theorem witness_StepEndsWithOneOfFiveResults :
    (topBase.stopped = false ∧ report (stepped topBase) = .continued) ∧
    ((machine .unbounded [104, 5]).stopped = false ∧ report (stepped (machine .unbounded [104, 5])) = .output (some 5)) ∧
    ((machine .unbounded [99]).stopped = false ∧ report (stepped (machine .unbounded [99])) = .halted) ∧
    (starving.stopped = false ∧ report (stepped starving) = .inputStarved) ∧
    (State.reset.stopped = false ∧
      report (stepped State.reset) = .fault (some { cause := .illegalOpcode 0, pc := 0, word := some 0 })) := by decide

/-- OUT, JT taken and not, JF, ARB and HLT answer a next state; and OUT, JT and ARB one that took a fault. -/
theorem witness_NoStoreInstrFrame :
    exec (.out ⟨.position, 0⟩ .position .relative) topBase =
      .next { topBase with outbuf := [1105], pc := 2, status := .suspended } ∧
    exec (.jt ⟨.immediate, 1⟩ ⟨.immediate, -3⟩ .relative) topBase = .next { topBase with pc := -3 } ∧
    exec (.jt ⟨.immediate, 0⟩ ⟨.immediate, -3⟩ .relative) topBase = .next { topBase with pc := 3 } ∧
    exec (.jf ⟨.immediate, 0⟩ ⟨.immediate, 9⟩ .relative) topBase = .next { topBase with pc := 9 } ∧
    exec (.arb ⟨.immediate, -1⟩ .position .relative) topBase = .next { topBase with rb := 9223372036854775806, pc := 2 } ∧
    exec (.hlt .position .immediate .relative) topBase = .next { topBase with halted := true, status := .halted } ∧
    exec (.out ⟨.position, -1⟩ .position .relative) topBase = .next (topBase.takeFault (.invalidAddress (-1))) ∧
    exec (.jt ⟨.immediate, 0⟩ ⟨.position, -1⟩ .relative) topBase = .next (topBase.takeFault (.invalidAddress (-1))) ∧
    exec (.arb ⟨.immediate, 1⟩ .position .relative) topBase = .next (topBase.takeFault (.overflow 9223372036854775808)) :=
  ⟨rfl, rfl, rfl, rfl, rfl, rfl, rfl, rfl, rfl⟩

/-- A canonical memory and a step of each shape that answers a next state: storing, input, and neither. -/
theorem witness_frames :
    Memory.wf topBase.mem = true ∧
    exec (.add ⟨.immediate, 1⟩ ⟨.position, 0⟩ ⟨.position, 9⟩) topBase =
      .next { topBase with mem := Memory.write topBase.mem 9 1106, pc := 4 } ∧
    exec (.inp ⟨.position, 9⟩ .position .position) topBase =
      .next { topBase with mem := Memory.write topBase.mem 9 5, inq := [], pc := 2 } ∧
    exec (.out ⟨.position, 0⟩ .position .position) topBase =
      .next { topBase with outbuf := [1105], pc := 2, status := .suspended } := ⟨by decide, rfl, rfl, rfl⟩

theorem witness_write_targets :
    writeAddr topBase 3 ⟨.relative, 0⟩ = .ok 9223372036854775807 ∧
    writeAddr topBase 3 ⟨.relative, 1⟩ = .error (.overflow 9223372036854775808) ∧
    writeAddr topBase 1 ⟨.position, -1⟩ = .error (.invalidAddress (-1)) ∧ topBase.inq ≠ [] ∧ starving.inq = [] := by decide

/-- A5 changes a cell; B2 the base; I2 the queue; O1 the output buffer; H1 `halted`. -/
theorem witness_OneCellPerStep_EachElementHasItsWriter :
    Memory.wf (machine .unbounded [1101, 7, 0, 0]).mem = true ∧
    (stepped (machine .unbounded [1101, 7, 0, 0])).cell 0 ≠ (machine .unbounded [1101, 7, 0, 0]).cell 0 ∧
    (stepped (machine .unbounded [109, 1])).rb ≠ (machine .unbounded [109, 1]).rb ∧
    (stepped { starving with inq := [9, 0] }).inq ≠ [9, 0] ∧
    (stepped (machine .unbounded [4, 3, 99, -17])).outbuf ≠ [] ∧
    (stepped (machine .unbounded [99])).halted ≠ false := by decide

/-- The machine after an instruction. -/
def answered (i : Instr) (s : State) : State :=
  match exec i s with
  | .next t => t
  | .fault _ => s
  | .refused _ => s

/-- P4's case, the word of the next instruction written, for each instruction that stores. -/
theorem witness_FetchSeesEarlierWrite :
    Memory.wf topBase.mem = true ∧
    (∀ i ∈ [Instr.add ⟨.immediate, 100⟩ ⟨.immediate, -1⟩ ⟨.position, 4⟩, .mul ⟨.immediate, 33⟩ ⟨.immediate, 3⟩ ⟨.position, 4⟩,
        .lt ⟨.immediate, -1⟩ ⟨.immediate, 0⟩ ⟨.position, 4⟩, .eq ⟨.immediate, 0⟩ ⟨.immediate, 0⟩ ⟨.position, 4⟩],
      (answered i topBase).status = .running ∧ topBase.address ⟨.position, 4⟩ = (answered i topBase).pc) ∧
    (answered (.inp ⟨.position, 2⟩ .position .position) topBase).status = .running ∧
    topBase.address ⟨.position, 2⟩ = (answered (.inp ⟨.position, 2⟩ .position .position) topBase).pc ∧
    exec (.inp ⟨.position, 2⟩ .position .position) topBase =
      .next (answered (.inp ⟨.position, 2⟩ .position .position) topBase) := ⟨by decide, by decide, by decide, by decide, rfl⟩

/-- A machine in mid-run that meets the invariant: `topBase`, whose step is a taken jump. -/
theorem witness_StepKeepsMachineInvariant : topBase.Inv ∧ step topBase = .next { topBase with pc := 0 } := by
  refine ⟨⟨by decide, by decide, by decide, ?_, ?_, by decide, ?_⟩, rfl⟩
  · intro r h; cases h
  · intro h; cases h
  · intro _ r h; cases h

/-- A program with an element at the end of the range of `I64Checked`, which is loaded; and one past it, refused (E10). -/
theorem witness_load :
    load .i64Checked [9223372036854775807] = .ok (machine .i64Checked [9223372036854775807]) ∧
    load .i64Checked [9223372036854775808] = .error (.loadOutOfRange 9223372036854775808) ∧
    feed topBase [-9223372036854775809] = .error (.feedOutOfRange (-9223372036854775809)) ∧
    feed topBase [-9223372036854775808] = .ok { topBase with inq := [5, -9223372036854775808] } := by decide

/-- The bound on a program's length is asked under `I64Checked` alone. -/
theorem witness_HostOperationsKeepMachineInvariant :
    (IntModel.i64Checked = .i64Checked → (([3, 0, 99] : List Int).length : Int) ≤ 9223372036854775808) ∧
    (∀ n : Nat, IntModel.unbounded = .i64Checked → (n : Int) ≤ 9223372036854775808) ∧
    load .i64Checked [3, 0, 99] = .ok (machine .i64Checked [3, 0, 99]) ∧
    load .unbounded [9223372036854775808] = .ok (machine .unbounded [9223372036854775808]) :=
  ⟨fun _ => by decide, fun _ h => (nomatch h), by decide, by decide⟩

theorem witness_BurstReturnsAtMostOneOutput :
    BurstEnds (machine .unbounded [104, 5]) (stepped (machine .unbounded [104, 5])) (.output (some 5)) ∧
    BurstEnds (machine .unbounded [99]) (stepped (machine .unbounded [99])) .halted := ⟨⟨1, by decide⟩, ⟨1, by decide⟩⟩

/-- E5, and its mirror in `JF`. -/
theorem witness_SelfJumpHangs :
    (topBase.stopped = false ∧ topBase.Readable ⟨.immediate, 1⟩ ∧ topBase.Readable ⟨.immediate, 0⟩ ∧
      topBase.value ⟨.immediate, 0⟩ = topBase.pc ∧
      fetchInstr topBase = .ok (.jt ⟨.immediate, 1⟩ ⟨.immediate, 0⟩ .position) ∧ topBase.value ⟨.immediate, 1⟩ ≠ 0) ∧
    (fetchInstr (machine .unbounded [1106, 0, 0]) = .ok (.jf ⟨.immediate, 0⟩ ⟨.immediate, 0⟩ .position) ∧
      (machine .unbounded [1106, 0, 0]).value ⟨.immediate, 0⟩ = 0) := by
  refine ⟨⟨rfl, trivial, trivial, by decide, by decide, by decide⟩, by decide, by decide⟩

theorem witness_BurstOutcomeIsUnique : burst 1 (machine .unbounded [99]) = some (stepped (machine .unbounded [99]), .halted) := by
  decide

/-! ### The ring -/

/-- The program of G5 and G9 with two phases, as constructed. -/
def pair (program : List Int) : Ring :=
  { machines := [{ machine .unbounded program with inq := [1, 0] }, { machine .unbounded program with inq := [2] }]
    turn := 0, round := 1, progress := false, verdict := none }

theorem witness_RingConstruction :
    load .i64Checked [3, 0, 99] = .ok (machine .i64Checked [3, 0, 99]) ∧ ([9223372036854775807, 2] : List Int) ≠ [] ∧
    InRange .i64Checked 9223372036854775807 ∧ ringStart .unbounded [3, 0, 99] [1, 2] 0 = .ok (pair [3, 0, 99]) := by
  refine ⟨by decide, by decide, by simp [InRange], by decide⟩

/-- A machine whose next instruction outputs 5. -/
def outputting : State := machine .i64Checked [104, 5, 99]

/-- A halted machine with an unread input. -/
def haltedMachine : State := { machine .i64Checked [99] with halted := true, status := .halted, inq := [0] }

/-- G10: the first machine has halted in this round, the second has its turn and outputs. -/
def haltedSuccessor : Ring :=
  { machines := [haltedMachine, outputting], turn := 1, round := 2, progress := true, verdict := none }

/-- G3: a ring of one machine, which feeds itself. -/
def alone : Ring := { machines := [outputting], turn := 0, round := 1, progress := false, verdict := none }

/-- A step in which the successor gains a value, and one in which a machine alone gains its own. -/
theorem witness_RingMovesOnlyOutputs :
    ((pair [104, 5, 99]).machines[1]? = some { machine .unbounded [104, 5, 99] with inq := [2] } ∧
      1 ≠ (pair [104, 5, 99]).turn ∧
      (pair [104, 5, 99]).step.machines[1]? = some { machine .unbounded [104, 5, 99] with inq := [2, 5] }) ∧
    (alone.machines[0]? = some outputting ∧ 0 = alone.turn ∧ alone.machines.length = 1 ∧
      alone.step.machines[0]? = some { stepped outputting with inq := [5] }) := by decide

theorem outputting_inv : outputting.Inv := by
  refine ⟨by decide, by decide, by decide, ?_, ?_, by decide, ?_⟩ <;> intros <;> contradiction

theorem haltedMachine_inv : haltedMachine.Inv := by
  refine ⟨by decide, by decide, by decide, ?_, ?_, by decide, ?_⟩ <;> intros <;> contradiction

theorem alone_inv : alone.Inv := by
  refine ⟨fun m hm => ?_, by decide, by decide, by decide, fun _ j m hj => absurd hj (Nat.not_lt_zero j), ?_, ?_⟩
  · rw [List.mem_singleton.mp hm]; exact outputting_inv
  · intro k h; cases h
  · intro v h; cases h

theorem haltedSuccessor_inv : haltedSuccessor.Inv := by
  refine ⟨fun m hm => ?_, by decide, by decide, by decide, fun h => (nomatch h), ?_, ?_⟩
  · rcases List.mem_cons.mp hm with rfl | hm
    · exact haltedMachine_inv
    · rw [List.mem_singleton.mp hm]; exact outputting_inv
  · intro k h; cases h
  · intro v h; cases h

/-- G10 and G3: an output to a halted successor, and in a ring of one machine. -/
theorem witness_RingRoutesEveryOutput :
    (haltedSuccessor.Inv ∧ haltedSuccessor.verdict = none ∧ haltedSuccessor.machines[haltedSuccessor.turn]? = some outputting ∧
      1 < haltedSuccessor.machines.length) ∧
    (alone.Inv ∧ alone.verdict = none ∧ alone.machines[alone.turn]? = some outputting ∧ alone.machines.length = 1) ∧
    isHalted outputting = false ∧ step outputting = .next (stepped outputting) ∧
    report (stepped outputting) = .output (some 5) :=
  ⟨⟨haltedSuccessor_inv, rfl, rfl, by decide⟩, ⟨alone_inv, rfl, rfl, rfl⟩, rfl, rfl, by decide⟩

/-- G10's end: the halted successor keeps the value it is fed. -/
theorem test_output_to_halted_successor :
    haltedSuccessor.step.machines[0]? = some { haltedMachine with inq := [0, 5] } := by decide

/-- A ring whose machine at turn 0 is the given one. -/
def ringOf (m : State) : Ring := { machines := [m, starving], turn := 0, round := 1, progress := false, verdict := none }

/-- A halted machine, and a machine that is not and whose step gives each of the five results. -/
theorem witness_RingStepByResult :
    (∀ m ∈ [haltedMachine, topBase, outputting, machine .unbounded [99], starving, State.reset],
      (ringOf m).verdict = none ∧ (ringOf m).machines[(ringOf m).turn]? = some m) ∧
    haltedMachine.halted = true ∧
    (∀ m ∈ [topBase, outputting, machine .unbounded [99], starving, State.reset], m.halted = false) ∧
    report (stepped topBase) = .continued ∧ report (stepped outputting) = .output (some 5) ∧
    report (stepped (machine .unbounded [99])) = .halted ∧ report (stepped starving) = .inputStarved ∧
    report (stepped State.reset) = .fault (some { cause := .illegalOpcode 0, pc := 0, word := some 0 }) := by decide

theorem witness_RingTurnIsOneBurst :
    (pair [104, 5, 99]).verdict = none ∧
    (pair [104, 5, 99]).machines[(pair [104, 5, 99]).turn]? = some { machine .unbounded [104, 5, 99] with inq := [1, 0] } ∧
    isHalted { machine .unbounded [104, 5, 99] with inq := [1, 0] } = false ∧
    burst 1 { machine .unbounded [104, 5, 99] with inq := [1, 0] } =
      some (stepped { machine .unbounded [104, 5, 99] with inq := [1, 0] }, .output (some 5)) := by decide

/-- The ends of a round: all halted with an output; all halted without one; one not halted, with and without progress. -/
theorem witness_RingRoundEnd :
    (let m : State := { machine .unbounded [99] with halted := true, status := .halted, outbuf := [7] }
     let r : Ring := { machines := [m], turn := 1, round := 2, progress := true, verdict := none }
     r.verdict = none ∧ r.turn = r.machines.length ∧ r.machines.getLast? = some m ∧ (∀ x ∈ r.machines, x.halted = true) ∧
       m.outbuf.getLast? = some 7) ∧
    (let m : State := { machine .unbounded [99] with halted := true, status := .halted }
     (∀ x ∈ [m], x.halted = true) ∧ m.outbuf = []) ∧
    (∃ m ∈ [starving], m.halted = false) := by decide

/-- A round without progress in which the first machine has starved and the second has its turn. -/
theorem witness_RingStepKeepsRingInvariant :
    Ring.Inv
      { machines := [{ starving with status := .awaitingInput }, starving], turn := 1, round := 1, progress := false
        verdict := none } := by
  refine ⟨?_, by decide, by decide, by decide, ?_, ?_, ?_⟩
  · intro m hm
    rcases List.mem_cons.mp hm with rfl | hm
    · refine ⟨by decide, by decide, by decide, ?_, ?_, by decide, ?_⟩ <;> intros <;> contradiction
    · rw [List.mem_singleton.mp hm]
      refine ⟨by decide, by decide, by decide, ?_, ?_, by decide, ?_⟩ <;> intros <;> contradiction
  · intro _ j m hj hm
    have : j = 0 := by change j < 1 at hj; omega
    subst this
    cases hm
    exact .inr ⟨rfl, rfl, rfl⟩
  · intro k h; cases h
  · intro v h; cases h

theorem witness_RingStartMeetsRingInvariant :
    ((IntModel.unbounded = .i64Checked → (([3, 0, 99] : List Int).length : Int) ≤ 9223372036854775808) ∧
      ringStart .unbounded [3, 0, 99] [1, 2] 0 = .ok (pair [3, 0, 99])) ∧
    ((IntModel.i64Checked = .i64Checked → (([99] : List Int).length : Int) ≤ 9223372036854775808) ∧
      ringStart .i64Checked [99] [7] 0 =
        .ok { machines := [{ machine .i64Checked [99] with inq := [7, 0] }], turn := 0, round := 1, progress := false
              verdict := none }) := by decide

/-- G8: machine 0 faults at its first step. -/
theorem witness_RingFaultAborts :
    (pair [0]).verdict = none ∧ (pair [0]).machines[(pair [0]).turn]? = some { machine .unbounded [0] with inq := [1, 0] } ∧
    isHalted { machine .unbounded [0] with inq := [1, 0] } = false ∧
    step { machine .unbounded [0] with inq := [1, 0] } = .next (stepped { machine .unbounded [0] with inq := [1, 0] }) ∧
    (stepped { machine .unbounded [0] with inq := [1, 0] }).status = .faulted := ⟨rfl, rfl, rfl, rfl, by decide⟩

end Sys2Proof.Tests
end

/-! # The invariant of one machine (O36)

A machine that is not stopped has no fault record and is not halted, so what is left of its invariant is about its memory and
its integers: `State.Live`. Each kind of commit of an instruction keeps `Live`; a fault and a halt make the invariant of the
stopped machine out of it. -/

namespace Sys2Proof.Machine

/-! ## The integers of a machine (R5) -/

theorem all_fits_iff {model : IntModel} {vs : List Int} :
    vs.all (fits model) = true ↔ ∀ v ∈ vs, InRange model v := by
  simp only [List.all_eq_true, fits_eq_true_iff]

theorem State.allFit_eq_true_iff {s : State} :
    s.allFit = true ↔ Memory.allFit s.intModel s.mem = true ∧ InRange s.intModel s.pc ∧ InRange s.intModel s.rb ∧
      (∀ v ∈ s.inq, InRange s.intModel v) ∧ ∀ v ∈ s.outbuf, InRange s.intModel v := by
  simp only [State.allFit, Bool.and_eq_true, fits_eq_true_iff, all_fits_iff, and_assoc]

theorem inRange_zero (model : IntModel) : InRange model 0 := fits_eq_true_iff.mp (fits_zero model)

theorem inRange_truthWord (model : IntModel) (b : Bool) : InRange model (truthWord b) :=
  fits_eq_true_iff.mp (fits_truthWord model b)

/-! ## Machines that are not stopped -/

/-- What the invariant says of a machine that is not stopped, but for the output of a suspended one: canonical memory, no
halt, no fault record, and every integer in range (R5, R23, R28). It does not speak of `status`. -/
structure State.Live (s : State) : Prop where
  canonical : Memory.wf s.mem = true
  notHalted : s.halted = false
  noRecord : s.fault = none
  memFits : Memory.allFit s.intModel s.mem = true
  pcInRange : InRange s.intModel s.pc
  rbInRange : InRange s.intModel s.rb
  inqInRange : ∀ v ∈ s.inq, InRange s.intModel v
  outbufInRange : ∀ v ∈ s.outbuf, InRange s.intModel v

namespace State.Live

variable {s t : State}

theorem allFit (h : s.Live) : s.allFit = true :=
  State.allFit_eq_true_iff.mpr ⟨h.memFits, h.pcInRange, h.rbInRange, h.inqInRange, h.outbufInRange⟩

theorem of_inv (h : s.Inv) (hs : s.stopped = false) : s.Live := by
  obtain ⟨hhalt, hfault⟩ := (State.stopped_eq_false_iff s).mp hs
  obtain ⟨hmem, hpc, hrb, hinq, hout⟩ := State.allFit_eq_true_iff.mp h.inRange
  have notHalted : s.halted = false := Bool.eq_false_iff.mpr (mt h.haltedIff.mp hhalt)
  have noRecord : s.fault = none := Option.not_isSome_iff_eq_none.mp (mt h.faultIff.mp hfault)
  exact ⟨h.canonical, notHalted, noRecord, hmem, hpc, hrb, hinq, hout⟩

theorem inv (h : s.Live) (hs : s.stopped = false) (hout : s.status = .suspended → s.outbuf ≠ []) : s.Inv := by
  obtain ⟨hhalt, hfault⟩ := (State.stopped_eq_false_iff s).mp hs
  exact {
    canonical := h.canonical
    haltedIff := by simp [h.notHalted, hhalt]
    faultIff := by simp [h.noRecord, hfault]
    faultPrecise := by simp [h.noRecord]
    suspendedOutput := hout
    inRange := h.allFit
    noOverflow := by simp [h.noRecord] }

theorem inv_of_running (h : s.Live) (hs : s.status = .running) : s.Inv :=
  h.inv (by simp [State.stopped, hs]) (by simp [hs])

/-- A fault that is taken stops the machine with its precise record (R108, R111). -/
theorem inv_of_faultTaken (h : s.Live) (hf : FaultTaken s t) : t.Inv := by
  obtain ⟨c, rfl, hc⟩ := hf
  exact {
    canonical := h.canonical
    haltedIff := by simp [h.notHalted]
    faultIff := by simp
    faultPrecise := by rintro r ⟨⟩; exact ⟨rfl, rfl⟩
    suspendedOutput := by simp
    inRange := h.allFit
    noOverflow := by rintro hu r ⟨⟩; exact hc hu }

/-- A halt sets `halted` and `status` together (R23, R84). -/
theorem inv_of_halt (h : s.Live) : State.Inv { s with halted := true, status := .halted } where
  canonical := h.canonical
  haltedIff := by simp
  faultIff := by simp [h.noRecord]
  faultPrecise := by simp [h.noRecord]
  suspendedOutput := by simp
  inRange := h.allFit
  noOverflow := by simp [h.noRecord]

/-! ## What keeps a machine live -/

theorem setStatus (h : s.Live) (st : Status) : Live { s with status := st } := { h with }

theorem resume (h : s.Live) : s.resume.Live := h.setStatus .running

theorem setPc (h : s.Live) {p : Int} (hp : InRange s.intModel p) : Live { s with pc := p } :=
  { h with pcInRange := hp }

theorem setRb (h : s.Live) {b : Int} (hb : InRange s.intModel b) : Live { s with rb := b } :=
  { h with rbInRange := hb }

theorem setInq (h : s.Live) {vs : List Int} (hvs : ∀ v ∈ vs, InRange s.intModel v) : Live { s with inq := vs } :=
  { h with inqInRange := hvs }

theorem appendOutput (h : s.Live) {v : Int} (hv : InRange s.intModel v) : Live { s with outbuf := s.outbuf ++ [v] } :=
  { h with outbufInRange := by simpa [or_imp, forall_and] using ⟨h.outbufInRange, hv⟩ }

theorem write (h : s.Live) {a v : Int} (h0 : 0 ≤ a) (ha : InRange s.intModel a) (hv : InRange s.intModel v) :
    Live { s with mem := Memory.write s.mem a.toNat v } :=
  { h with
    canonical := Memory.wf_write h.canonical _ _
    memFits := Memory.allFit_write (fits_eq_true_iff.mpr (by rwa [Int.toNat_of_nonneg h0])) (fits_eq_true_iff.mpr hv)
      h.memFits }

/-! ## The integers an instruction of a live machine meets -/

theorem cell_inRange (h : s.Live) (a : Int) : InRange s.intModel (s.cell a) :=
  fits_eq_true_iff.mp (Memory.allFit_read h.memFits _)

/-- A read parameter's value is a cell or the parameter word (R59). -/
theorem value_inRange (h : s.Live) {p : Param} (hp : InRange s.intModel p.raw) : InRange s.intModel (s.value p) := by
  unfold State.value
  cases p.mode
  case position => exact h.cell_inRange _
  case immediate => exact hp
  case relative => exact h.cell_inRange _

theorem fetchParam_inRange (h : s.Live) {n k : Nat} {r : Int} (hr : fetchParam s n k = .ok r) :
    InRange s.intModel r := by
  rcases fetchParam_eq_ok.mp hr with ⟨-, -, -, rfl⟩ | ⟨-, rfl⟩
  · exact h.cell_inRange _
  · exact inRange_zero _

end State.Live

/-- The parameter words of a decoded instruction are among those it was made from (R58, R62). -/
theorem paramWords_toInstr_subset (d : Decoded) (r1 r2 r3 : Int) : (d.toInstr r1 r2 r3).paramWords ⊆ [r1, r2, r3] := by
  unfold Decoded.toInstr
  cases d.op <;> simp [Instr.paramWords]

/-- A fetched instruction's parameter words are cells of memory (R58), so they are in range. -/
theorem State.Live.paramWords_inRange {s : State} (h : s.Live) {i : Instr} (hi : fetchInstr s = .ok i) :
    ∀ v ∈ i.paramWords, InRange s.intModel v := by
  obtain ⟨-, d, r1, r2, r3, -, h1, h2, h3, rfl⟩ := fetchInstr_eq_ok.mp hi
  have words : ∀ v ∈ [r1, r2, r3], InRange s.intModel v := by
    simp [h.fetchParam_inRange h1, h.fetchParam_inRange h2, h.fetchParam_inRange h3]
  exact fun v hv => words v (paramWords_toInstr_subset d r1 r2 r3 hv)

/-- A write target's address is its parameter word, or a relative sum that was checked (R60, R107). -/
theorem State.Writable.address_inRange {s : State} {p : Param} (h : s.Writable p) (hp : InRange s.intModel p.raw) :
    InRange s.intModel (s.address p) := by
  obtain ⟨hmode, hreach⟩ := h
  unfold State.Reachable at hreach
  unfold State.address
  cases hm : p.mode <;> simp only [hm] at hreach ⊢
  case position => exact hp
  case immediate => exact absurd hm hmode
  case relative => exact hreach.1

/-! ## Every instruction, every step -/

section Commit

variable {s t : State} (hs : s.Live)
include hs

theorem execOut_inv {a : Param} (ha : InRange s.intModel a.raw) (h : execOut a s = .next t) : t.Inv := by
  rcases execOut_cases h with hf | ⟨-, hpc, rfl⟩
  · exact hs.inv_of_faultTaken hf
  · exact (((hs.appendOutput (hs.value_inRange ha)).setPc hpc).setStatus .suspended).inv rfl (by simp)

variable (hrun : s.status = .running)
include hrun

theorem inv_of_storeCommit {a b p : Param} {r : Int} (hp : InRange s.intModel p.raw) (hr : InRange s.intModel r)
    (h : StoreCommit s t a b p r) : t.Inv := by
  obtain ⟨-, -, hw, hpc, rfl⟩ := h
  exact ((hs.write hw.address_nonneg (hw.address_inRange hp) hr).setPc hpc).inv_of_running hrun

theorem inv_of_jumpCommit {c d : Param} {taken : Prop} (hd : InRange s.intModel d.raw)
    (h : JumpCommit s t c d taken) : t.Inv := by
  obtain ⟨-, -, ⟨-, rfl⟩ | ⟨-, hpc, rfl⟩⟩ := h
  · exact (hs.setPc (hs.value_inRange hd)).inv_of_running hrun
  · exact (hs.setPc hpc).inv_of_running hrun

theorem execIn_inv {p : Param} (hp : InRange s.intModel p.raw) (h : execIn p s = .next t) : t.Inv := by
  rcases execIn_cases h with hf | ⟨-, -, rfl⟩ | ⟨hw, v, rest, hq, hpc, rfl⟩
  · exact hs.inv_of_faultTaken hf
  · exact (hs.setStatus .awaitingInput).inv rfl nofun
  · have queue : InRange s.intModel v ∧ ∀ x ∈ rest, InRange s.intModel x := by
      simpa [hq] using hs.inqInRange
    exact (((hs.write hw.address_nonneg (hw.address_inRange hp) queue.1).setPc hpc).setInq queue.2).inv_of_running hrun

theorem execArb_inv {a : Param} (h : execArb a s = .next t) : t.Inv := by
  rcases execArb_cases h with hf | ⟨-, hrb, hpc, rfl⟩
  · exact hs.inv_of_faultTaken hf
  · exact ((hs.setRb hrb).setPc hpc).inv_of_running hrun

/-- Every instruction whose parameter words are in range answers a state of the invariant. -/
theorem exec_inv {i : Instr} (hi : ∀ v ∈ i.paramWords, InRange s.intModel v) (h : exec i s = .next t) : t.Inv := by
  cases i with
  | add a b p =>
    exact (execAdd_cases h).elim hs.inv_of_faultTaken fun ⟨hr, hc⟩ =>
      inv_of_storeCommit hs hrun (hi _ (by simp [Instr.paramWords])) hr hc
  | mul a b p =>
    exact (execMul_cases h).elim hs.inv_of_faultTaken fun ⟨hr, hc⟩ =>
      inv_of_storeCommit hs hrun (hi _ (by simp [Instr.paramWords])) hr hc
  | inp p u2 u3 => exact execIn_inv hs hrun (hi _ (by simp [Instr.paramWords])) h
  | out a u2 u3 => exact execOut_inv hs (hi _ (by simp [Instr.paramWords])) h
  | jt c d u3 =>
    exact (execJt_cases h).elim hs.inv_of_faultTaken
      (inv_of_jumpCommit hs hrun (hi _ (by simp [Instr.paramWords])))
  | jf c d u3 =>
    exact (execJf_cases h).elim hs.inv_of_faultTaken
      (inv_of_jumpCommit hs hrun (hi _ (by simp [Instr.paramWords])))
  | lt a b p =>
    exact (execLt_cases h).elim hs.inv_of_faultTaken
      (inv_of_storeCommit hs hrun (hi _ (by simp [Instr.paramWords])) (inRange_truthWord _ _))
  | eq a b p =>
    exact (execEq_cases h).elim hs.inv_of_faultTaken
      (inv_of_storeCommit hs hrun (hi _ (by simp [Instr.paramWords])) (inRange_truthWord _ _))
  | arb a u2 u3 => exact execArb_inv hs hrun h
  | hlt u1 u2 u3 => rw [execHlt_cases h]; exact hs.inv_of_halt

end Commit

/-- Every step keeps the invariant: a stopped machine stays as it is, and a live one faults or runs its instruction. -/
theorem step_inv {s t : State} (hs : s.Inv) (h : step s = .next t) : t.Inv := by
  rcases step_cases h with ⟨-, rfl⟩ | ⟨hlive, hf⟩ | ⟨hlive, i, hi, hexec⟩
  · exact hs
  · exact (State.Live.of_inv hs hlive).inv_of_faultTaken hf
  · have live := State.Live.of_inv hs hlive
    exact exec_inv live.resume rfl (live.paramWords_inRange hi) hexec

/-- Settles O36: by `step_inv`, for which `State.Live` is what the invariant says of a machine that is not stopped. -/
theorem stepKeepsMachineInvariant : Obligations.StepKeepsMachineInvariant :=
  fun _ _ hs h => step_inv hs h

end Sys2Proof.Machine

/-! # The writer of each register and queue (O34)

`OwnWriters` is the statement about one step, said of any two states. A machine whose four elements stayed as they were meets
it whatever was fetched, so that only ARB, IN, OUT and HLT are left to look at. -/

namespace Sys2Proof.Machine

/-- Each of `rb`, `inq`, `outbuf` and `halted` differs only where its own instruction is the one fetched, and then by what
that instruction does (R18, R21, R22, R23). -/
structure OwnWriters (s t : State) : Prop where
  rb : t.rb ≠ s.rb → ∃ a u2 u3, fetchInstr s = .ok (.arb a u2 u3) ∧ t.rb = s.rb + s.value a
  inq : t.inq ≠ s.inq →
    ∃ p u2 u3 v, fetchInstr s = .ok (.inp p u2 u3) ∧ s.inq = v :: t.inq ∧ t.cell (s.address p) = v
  outbuf : t.outbuf ≠ s.outbuf → ∃ a u2 u3, fetchInstr s = .ok (.out a u2 u3) ∧ t.outbuf = s.outbuf ++ [s.value a]
  halted : t.halted ≠ s.halted → t.halted = true ∧ ∃ u1 u2 u3, fetchInstr s = .ok (.hlt u1 u2 u3)

namespace OwnWriters

variable {s t : State}

theorem of_unchanged (hrb : t.rb = s.rb) (hinq : t.inq = s.inq) (hout : t.outbuf = s.outbuf)
    (hhalted : t.halted = s.halted) : OwnWriters s t :=
  ⟨absurd hrb, absurd hinq, absurd hout, absurd hhalted⟩

theorem of_faultTaken (h : FaultTaken s t) : OwnWriters s t := by
  obtain ⟨c, rfl, -⟩ := h
  exact of_unchanged rfl rfl rfl rfl

theorem of_storeCommit {a b p : Param} {r : Int} (h : StoreCommit s t a b p r) : OwnWriters s t := by
  obtain ⟨-, -, -, -, rfl⟩ := h
  exact of_unchanged rfl rfl rfl rfl

theorem of_jumpCommit {c d : Param} {taken : Prop} (h : JumpCommit s t c d taken) : OwnWriters s t := by
  obtain ⟨-, -, ⟨-, rfl⟩ | ⟨-, -, rfl⟩⟩ := h <;> exact of_unchanged rfl rfl rfl rfl

theorem of_execIn {p : Param} {u2 u3 : Mode} (hm : Memory.wf s.mem = true) (hi : fetchInstr s = .ok (.inp p u2 u3))
    (h : execIn p s = .next t) : OwnWriters s t := by
  rcases execIn_cases h with hf | ⟨-, -, rfl⟩ | ⟨-, v, rest, hq, -, rfl⟩
  · exact of_faultTaken hf
  · exact of_unchanged rfl rfl rfl rfl
  · have stored : Memory.read (Memory.write s.mem (s.address p).toNat v) (s.address p).toNat = v := by
      rw [Memory.read_write hm, if_pos rfl]
    exact ⟨absurd rfl, fun _ => ⟨p, u2, u3, v, hi, hq, stored⟩, absurd rfl, absurd rfl⟩

theorem of_execOut {a : Param} {u2 u3 : Mode} (hi : fetchInstr s = .ok (.out a u2 u3)) (h : execOut a s = .next t) :
    OwnWriters s t := by
  rcases execOut_cases h with hf | ⟨-, -, rfl⟩
  · exact of_faultTaken hf
  · exact ⟨absurd rfl, absurd rfl, fun _ => ⟨a, u2, u3, hi, rfl⟩, absurd rfl⟩

theorem of_execArb {a : Param} {u2 u3 : Mode} (hi : fetchInstr s = .ok (.arb a u2 u3)) (h : execArb a s = .next t) :
    OwnWriters s t := by
  rcases execArb_cases h with hf | ⟨-, -, -, rfl⟩
  · exact of_faultTaken hf
  · exact ⟨fun _ => ⟨a, u2, u3, hi, rfl⟩, absurd rfl, absurd rfl, absurd rfl⟩

theorem of_execHlt {u1 u2 u3 : Mode} (hi : fetchInstr s = .ok (.hlt u1 u2 u3)) (h : execHlt s = .next t) :
    OwnWriters s t := by
  rw [execHlt_cases h]
  exact ⟨absurd rfl, absurd rfl, absurd rfl, fun _ => ⟨rfl, u1, u2, u3, hi⟩⟩

/-- The instruction fetched writes no register or queue but its own. -/
theorem of_exec {i : Instr} (hm : Memory.wf s.mem = true) (hi : fetchInstr s = .ok i) (h : exec i s = .next t) :
    OwnWriters s t := by
  cases i with
  | add a b p => exact (execAdd_cases h).elim of_faultTaken fun ⟨_, hc⟩ => of_storeCommit hc
  | mul a b p => exact (execMul_cases h).elim of_faultTaken fun ⟨_, hc⟩ => of_storeCommit hc
  | inp p u2 u3 => exact of_execIn hm hi h
  | out a u2 u3 => exact of_execOut hi h
  | jt c d u3 => exact (execJt_cases h).elim of_faultTaken of_jumpCommit
  | jf c d u3 => exact (execJf_cases h).elim of_faultTaken of_jumpCommit
  | lt a b p => exact (execLt_cases h).elim of_faultTaken of_storeCommit
  | eq a b p => exact (execEq_cases h).elim of_faultTaken of_storeCommit
  | arb a u2 u3 => exact of_execArb hi h
  | hlt u1 u2 u3 => exact of_execHlt hi h

/-- A step of a stopped machine and a fault of the fetch change none of the four elements; otherwise the instruction fetched
runs from the resumed machine, which differs in `status` alone. -/
theorem of_step (hm : Memory.wf s.mem = true) (h : step s = .next t) : OwnWriters s t := by
  rcases step_cases h with ⟨-, rfl⟩ | ⟨-, hf⟩ | ⟨-, i, hi, hexec⟩
  · exact of_unchanged rfl rfl rfl rfl
  · exact of_faultTaken hf
  · obtain ⟨hrb, hinq, hout, hhalted⟩ := of_exec (s := s.resume) hm hi hexec
    exact ⟨hrb, hinq, hout, hhalted⟩

end OwnWriters

/-- Settles O34: `OwnWriters` of the step, and `step_intModel` for the integer model. -/
theorem eachElementHasItsWriter : Obligations.EachElementHasItsWriter := by
  intro s t hm h
  obtain ⟨hrb, hinq, hout, hhalted⟩ := OwnWriters.of_step hm h
  exact ⟨hrb, hinq, hout, hhalted, step_intModel h⟩

end Sys2Proof.Machine

/-! # What moves between the machines of a ring (O46)

A step of the drive loop leaves the machines alone, or puts back the machine at turn after one step of its own; `afterStep`
then changes a machine of the ring so placed only by routing the value of an output to the successor. -/

namespace Sys2Proof.Machine

/-! ## Every step answers a next state (R92) -/

theorem exec_answers (i : Instr) (s : State) : ∃ t, exec i s = .next t := by
  cases i with
  | inp p u2 u3 => exact execIn_answers p s
  | hlt u1 u2 u3 => exact ⟨_, rfl⟩
  | _ => exact conclude_answers _ _

theorem step_answers (s : State) : ∃ t, step s = .next t := by
  cases hs : s.stopped with
  | true => exact ⟨s, step_of_stopped hs⟩
  | false =>
    cases hf : fetchInstr s with
    | error c => exact ⟨_, step_of_fetch_error hs hf⟩
    | ok i => rw [step_of_fetch hs hf]; exact exec_answers i _

/-! ## Routing one output -/

/-- A feed of at most one value leaves the machine as it was or appends that value to its queue (R88). -/
theorem afterFeed_toList_cases (s : State) (v : Option Int) :
    afterFeed s v.toList = s ∨ ∃ x, v = some x ∧ afterFeed s v.toList = { s with inq := s.inq ++ [x] } := by
  rcases afterFeed_cases s v.toList with ⟨-, h⟩ | ⟨-, h⟩
  · exact .inl h
  · cases v with
    | none => left; simpa using h
    | some x => exact .inr ⟨x, rfl, h⟩

namespace Ring

variable {r : Ring} {j : Nat} {m own : State}

/-- Routing an output leaves a machine as it was, or is to the successor, whose queue gains the value at its end (R124). -/
theorem route_toList_getElem?_cases (v : Option Int) (hm : r.machines[j]? = some m) :
    (r.route v.toList).machines[j]? = some m ∨
      (j = (r.turn + 1) % r.machines.length ∧ ∃ x, v = some x ∧
        (r.route v.toList).machines[j]? = some { m with inq := m.inq ++ [x] }) := by
  rw [route_getElem?, hm]
  split
  · next hj =>
    rcases afterFeed_toList_cases m v with h | ⟨x, hv, h⟩
    · exact .inl (congrArg some h)
    · exact .inr ⟨hj.symm, x, hv, congrArg some h⟩
  · exact .inl rfl

/-- Once the machine that stepped is back at its place, the `case r of` changes a machine only where it routes an output to
it (R123, R124). -/
theorem afterStep_getElem?_cases (res : StepResult) (hm : (r.place own).machines[j]? = some m) :
    (r.afterStep own res).machines[j]? = some m ∨
      (j = (r.turn + 1) % r.machines.length ∧ ∃ x, res = .output (some x) ∧
        (r.afterStep own res).machines[j]? = some { m with inq := m.inq ++ [x] }) := by
  cases res with
  | output v =>
    refine (route_toList_getElem?_cases v hm).imp id ?_
    rintro ⟨hj, x, rfl, h⟩
    exact ⟨by simpa using hj, x, rfl, h⟩
  | continued => exact .inl hm
  | halted => exact .inl hm
  | inputStarved => exact .inl hm
  | fault record => exact .inl hm

/-- Everything a step of the drive loop does to the ring's machines: nothing, or one step of the machine at turn (R123). -/
theorem step_machines_cases (r : Ring) :
    r.step.machines = r.machines ∨
      ∃ own own', r.machines[r.turn]? = some own ∧ Sys2Proof.Machine.step own = .next own' ∧
        r.step = r.afterStep own' (report own') := by
  cases hv : r.verdict with
  | some v => left; rw [step_of_done hv]
  | none =>
    cases hown : r.machines[r.turn]? with
    | none => left; rw [step_of_end hv hown, endRound_machines]
    | some own =>
      cases hh : isHalted own with
      | true => left; rw [step_of_halted hv hown hh, pass_machines]
      | false =>
        obtain ⟨own', hstep⟩ := step_answers own
        exact .inr ⟨own, own', rfl, hstep, step_of_live hv hown hh hstep⟩

theorem place_getElem?_turn (hm : r.machines[r.turn]? = some m) (own : State) :
    (r.place own).machines[r.turn]? = some own := by
  obtain ⟨hlt, -⟩ := List.getElem?_eq_some_iff.mp hm
  simp [hlt]

theorem place_getElem?_of_ne (hj : j ≠ r.turn) (own : State) : (r.place own).machines[j]? = r.machines[j]? := by
  simp [hj.symm]

end Ring

/-- A place that is its own successor is that of a ring of one machine (R124). -/
theorem eq_one_of_eq_succ_mod {i n : Nat} (hi : i < n) (h : i = (i + 1) % n) : n = 1 := by
  rcases Nat.lt_or_ge (i + 1) n with hlt | hge
  · rw [Nat.mod_eq_of_lt hlt] at h; omega
  · have hn : i + 1 = n := by omega
    rw [hn, Nat.mod_self] at h
    omega

/-- Settles O46: by what `afterStep` does to the ring in which the machine at turn has been put back after its step. -/
theorem ringMovesOnlyOutputs : Obligations.RingMovesOnlyOutputs := by
  intro r j m hm
  rcases r.step_machines_cases with hsame | ⟨own, own', hown, hstep, hring⟩
  · have unchanged : r.step.machines[j]? = some m := by rw [hsame, hm]
    exact ⟨fun _ => .inl unchanged, fun _ => .inl unchanged⟩
  · rw [hring]
    constructor
    · intro hj
      have placed : (r.place own').machines[j]? = some m := by rw [Ring.place_getElem?_of_ne hj, hm]
      refine (Ring.afterStep_getElem?_cases (report own') placed).imp id ?_
      rintro ⟨hsucc, v, hrep, hfed⟩
      exact ⟨hsucc, own, own', v, hown, hstep, hrep, hfed⟩
    · rintro rfl
      obtain rfl : own = m := Option.some.inj (hown.symm.trans hm)
      obtain ⟨hlt, -⟩ := List.getElem?_eq_some_iff.mp hm
      refine .inr ⟨own', hstep, (Ring.afterStep_getElem?_cases _ (Ring.place_getElem?_turn hm own')).imp id ?_⟩
      rintro ⟨hsucc, v, hrep, hfed⟩
      exact ⟨eq_one_of_eq_succ_mod hlt hsucc, v, hrep, hfed⟩

end Sys2Proof.Machine

/-! # Memory and the frame of every instruction (O8, O30, O31, O32, O33, O35)

An instruction changes memory in one way only: it writes one value at the resolved address of its write target. `StoresAt` says
so of any two states; what a cell and a fetch read after it, and where memory stays as it was, is said once for all of them. -/

namespace Sys2Proof.Machine

/-! ## Reading memory -/

/-- A cell that is not listed reads 0 (R37). -/
theorem Memory.read_of_not_listed {a : Nat} : ∀ {m : Memory}, (∀ c ∈ m, c.1 ≠ a) → Memory.read m a = 0
  | [], _ => rfl
  | (b, x) :: m, h => by
    obtain ⟨hb, hm⟩ := List.forall_mem_cons.mp h
    rw [Memory.read, if_neg hb.symm]
    exact Memory.read_of_not_listed hm

theorem memRead_of_nonneg (m : Memory) {a : Int} (ha : 0 ≤ a) : memRead m a = .ok (Memory.read m a.toNat) :=
  memRead_eq_ok.mpr ⟨ha, rfl⟩

/-- Two legal addresses name one cell exactly where they are equal (R33). -/
theorem toNat_inj_of_nonneg {a b : Int} (ha : 0 ≤ a) (hb : 0 ≤ b) : a.toNat = b.toNat ↔ a = b := by omega

/-- `MemRead` after `MemWrite` (R34, R36). -/
theorem memRead_write {m : Memory} (hm : Memory.wf m = true) {a b : Int} (ha : 0 ≤ a) (hb : 0 ≤ b) (v : Int) :
    memRead (Memory.write m a.toNat v) b = if b = a then .ok v else memRead m b := by
  simp only [memRead_of_nonneg _ hb, Memory.read_write hm, toNat_inj_of_nonneg hb ha]
  split <;> rfl

/-- Settles O8: by `memRead_write`, for which `Memory.read_write` needs the canonical form. -/
theorem memoryReadAfterWrite : Obligations.MemoryReadAfterWrite := by
  intro m a v hm
  refine ⟨fun ha => ?_, fun ha => ?_, fun ha hlist => ?_⟩
  · exact ⟨_, memWrite_eq_ok.mpr ⟨ha, rfl⟩, Memory.wf_write hm _ _, fun b hb => memRead_write hm ha hb v⟩
  · exact ⟨memWrite_eq_error.mpr ⟨ha, rfl⟩, memRead_eq_error.mpr ⟨ha, rfl⟩⟩
  · rw [memRead_of_nonneg m ha, Memory.read_of_not_listed hlist]

/-! ## One write at a resolved target -/

/-- The memory of `t` is that of `s` with `r` written at the address the write target `p` resolves to (R36, R60). -/
structure StoresAt (s t : State) (p : Param) (r : Int) : Prop where
  writable : s.Writable p
  mem_eq : t.mem = Memory.write s.mem (s.address p).toNat r

section Stores

variable {s t : State} {p : Param} {r : Int}

theorem StoreCommit.storesAt {a b : Param} (h : StoreCommit s t a b p r) : StoresAt s t p r := by
  obtain ⟨-, -, hw, -, rfl⟩ := h
  exact ⟨hw, rfl⟩

theorem StoresAt.cell_eq (h : StoresAt s t p r) (hm : Memory.wf s.mem = true) {x : Int} (hx : 0 ≤ x) :
    t.cell x = if x = s.address p then r else s.cell x := by
  rw [State.cell, h.mem_eq, Memory.read_write hm]
  simp only [toNat_inj_of_nonneg hx h.writable.address_nonneg, State.cell]

/-- A fetch at any address sees the write (R48). -/
theorem StoresAt.fetchWord_eq (h : StoresAt s t p r) (hm : Memory.wf s.mem = true) {x : Int} (hx : 0 ≤ x) :
    fetchWord { t with pc := x } = .ok (if x = s.address p then r else s.cell x) :=
  fetchWord_eq_ok.mpr ⟨hx, (h.cell_eq hm hx).symm⟩

/-- Where the target is the next instruction's word, the next fetch reads what was written (R48, R134). -/
theorem StoresAt.next_fetchWord_eq (h : StoresAt s t p r) (hm : Memory.wf s.mem = true) (hpc : s.address p = t.pc) :
    fetchWord t = .ok r := by
  have hx : 0 ≤ t.pc := hpc ▸ h.writable.address_nonneg
  simpa [hpc] using h.fetchWord_eq hm hx

end Stores

/-! ## What an instruction does to memory -/

section Frame

variable {s t : State}

theorem FaultTaken.mem_eq (h : FaultTaken s t) : t.mem = s.mem := by
  obtain ⟨c, rfl, -⟩ := h
  rfl

theorem FaultTaken.eq_takeFault (h : FaultTaken s t) : ∃ c, t = s.takeFault c :=
  h.imp fun _ => And.left

theorem FaultTaken.status_ne_running (h : FaultTaken s t) : t.status ≠ .running := by
  obtain ⟨c, rfl, -⟩ := h
  exact nofun

theorem JumpCommit.eq_setPc {c d : Param} {taken : Prop} (h : JumpCommit s t c d taken) : ∃ q, t = { s with pc := q } := by
  obtain ⟨-, -, ⟨-, h⟩ | ⟨-, -, h⟩⟩ := h
  · exact ⟨_, h⟩
  · exact ⟨_, h⟩

theorem execIn_mem_cases {p : Param} (h : execIn p s = .next t) : t.mem = s.mem ∨ ∃ r, StoresAt s t p r := by
  rcases execIn_cases h with hf | ⟨-, -, rfl⟩ | ⟨hw, v, rest, -, -, rfl⟩
  · exact .inl hf.mem_eq
  · exact .inl rfl
  · exact .inr ⟨v, hw, rfl⟩

/-- An instruction leaves memory as it was, or stores at its own write target (R39, R42). -/
theorem exec_mem_cases {i : Instr} (h : exec i s = .next t) :
    t.mem = s.mem ∨ ∃ p, writeTarget i = some p ∧ ∃ r, StoresAt s t p r := by
  cases i with
  | add a b p => exact (execAdd_cases h).imp FaultTaken.mem_eq fun ⟨_, hc⟩ => ⟨p, rfl, _, hc.storesAt⟩
  | mul a b p => exact (execMul_cases h).imp FaultTaken.mem_eq fun ⟨_, hc⟩ => ⟨p, rfl, _, hc.storesAt⟩
  | inp p u2 u3 => exact (execIn_mem_cases h).imp id fun hst => ⟨p, rfl, hst⟩
  | out a u2 u3 =>
    rcases execOut_cases h with hf | ⟨-, -, rfl⟩
    · exact .inl hf.mem_eq
    · exact .inl rfl
  | jt c d u3 =>
    rcases (execJt_cases h).imp id JumpCommit.eq_setPc with hf | ⟨q, rfl⟩
    · exact .inl hf.mem_eq
    · exact .inl rfl
  | jf c d u3 =>
    rcases (execJf_cases h).imp id JumpCommit.eq_setPc with hf | ⟨q, rfl⟩
    · exact .inl hf.mem_eq
    · exact .inl rfl
  | lt a b p => exact (execLt_cases h).imp FaultTaken.mem_eq fun hc => ⟨p, rfl, _, hc.storesAt⟩
  | eq a b p => exact (execEq_cases h).imp FaultTaken.mem_eq fun hc => ⟨p, rfl, _, hc.storesAt⟩
  | arb a u2 u3 =>
    rcases execArb_cases h with hf | ⟨-, -, -, rfl⟩
    · exact .inl hf.mem_eq
    · exact .inl rfl
  | hlt u1 u2 u3 => rw [execHlt_cases h]; exact .inl rfl

theorem State.cell_congr (h : t.mem = s.mem) (x : Int) : t.cell x = s.cell x := by
  rw [State.cell, h, State.cell]

variable {i : Instr} {p : Param} {k : Nat}

/-- Where the write target resolves, no other cell changes (R39). -/
theorem exec_cell_eq_of_ne (hm : Memory.wf s.mem = true) (hi : writeTarget i = some p) (h : exec i s = .next t) {ad : Int}
    (ha : writeAddr s k p = .ok ad) {x : Int} (hx : 0 ≤ x) (hne : x ≠ ad) : t.cell x = s.cell x := by
  obtain ⟨-, rfl⟩ := writeAddr_eq_ok.mp ha
  rcases exec_mem_cases h with hmem | ⟨p', hp', r, hst⟩
  · exact State.cell_congr hmem x
  · obtain rfl : p = p' := Option.some.inj (hi.symm.trans hp')
    rw [hst.cell_eq hm hx, if_neg hne]

/-- Where the write target faults, memory stays as it was (R111). -/
theorem exec_mem_eq_of_writeAddr_error (hi : writeTarget i = some p) (h : exec i s = .next t) {c : FaultCause}
    (hc : writeAddr s k p = .error c) : t.mem = s.mem := by
  rcases exec_mem_cases h with hmem | ⟨p', hp', r, hst⟩
  · exact hmem
  · obtain rfl : p = p' := Option.some.inj (hi.symm.trans hp')
    have resolves : writeAddr s k p = .ok (s.address p) := writeAddr_eq_ok.mpr ⟨hst.writable, rfl⟩
    rw [resolves] at hc
    cases hc

/-- The instructions with a write target are the five of R42. -/
theorem op_mem_of_writeTarget (hi : writeTarget i = some p) : i.decoded.op ∈ [Opcode.add, .mul, .inp, .lt, .eq] := by
  cases i <;> simp [writeTarget, Instr.decoded] at hi ⊢

/-! ## The frames -/

/-- ADD, MUL, LT and EQ take a fault or commit one store. -/
theorem exec_store_cases {a b : Param} (hi : i ∈ [Instr.add a b p, .mul a b p, .lt a b p, .eq a b p])
    (h : exec i s = .next t) : writeTarget i = some p ∧ (FaultTaken s t ∨ ∃ r, StoreCommit s t a b p r) := by
  simp only [List.mem_cons, List.not_mem_nil, or_false] at hi
  rcases hi with rfl | rfl | rfl | rfl
  · exact ⟨rfl, (execAdd_cases h).imp id fun ⟨_, hc⟩ => ⟨_, hc⟩⟩
  · exact ⟨rfl, (execMul_cases h).imp id fun ⟨_, hc⟩ => ⟨_, hc⟩⟩
  · exact ⟨rfl, (execLt_cases h).imp id fun hc => ⟨_, hc⟩⟩
  · exact ⟨rfl, (execEq_cases h).imp id fun hc => ⟨_, hc⟩⟩

end Frame

/-- Settles O30: the memory clauses hold of every instruction with a write target; the registers are those of a fault taken or
of a store's commit. -/
theorem storeInstrFrame : Obligations.StoreInstrFrame := by
  intro s t a b p hm i hi h
  obtain ⟨htarget, hcases⟩ := exec_store_cases hi h
  have resolved : ∀ ad, writeAddr s 3 p = .ok ad → ∀ x : Int, 0 ≤ x → x ≠ ad → t.cell x = s.cell x :=
    fun _ ha _ hx hne => exec_cell_eq_of_ne hm htarget h ha hx hne
  have faulted : ∀ c, writeAddr s 3 p = .error c → ∀ x : Int, t.cell x = s.cell x :=
    fun _ hc => State.cell_congr (exec_mem_eq_of_writeAddr_error htarget h hc)
  rcases hcases with ⟨c, rfl, -⟩ | ⟨r, -, -, -, -, rfl⟩
  · exact ⟨rfl, rfl, rfl, rfl, rfl, .inr ⟨c, rfl⟩, resolved, faulted⟩
  · exact ⟨rfl, rfl, rfl, rfl, rfl, .inl ⟨rfl, rfl⟩, resolved, faulted⟩

/-- Settles O31: as O30, with the starved machine as a third case, in which nothing was stored. -/
theorem inFrame : Obligations.InFrame := by
  intro s t p u2 u3 hm h
  have resolved : ∀ ad, writeAddr s 1 p = .ok ad → s.inq ≠ [] → ∀ x : Int, 0 ≤ x → x ≠ ad → t.cell x = s.cell x :=
    fun _ ha _ _ hx hne => exec_cell_eq_of_ne hm rfl h ha hx hne
  have faulted : ∀ c, writeAddr s 1 p = .error c → ∀ x : Int, t.cell x = s.cell x :=
    fun _ hc => State.cell_congr (exec_mem_eq_of_writeAddr_error rfl h hc)
  rcases execIn_cases h with ⟨c, rfl, -⟩ | ⟨-, -, rfl⟩ | ⟨-, v, rest, hq, -, rfl⟩
  · exact ⟨rfl, rfl, rfl, rfl, .inr (.inr ⟨c, rfl⟩), resolved, faulted, fun _ _ => rfl⟩
  · exact ⟨rfl, rfl, rfl, rfl, .inr (.inl rfl), resolved, faulted, fun _ _ => rfl⟩
  · exact ⟨rfl, rfl, rfl, rfl, .inl ⟨rfl, rfl, v, hq⟩, resolved, faulted, fun hnil => by simp [hnil] at hq⟩

/-- Settles O32: each of the five took a fault or committed its own effect, which names no memory and no input queue. -/
theorem noStoreInstrFrame : Obligations.NoStoreInstrFrame := by
  intro s t c d u1 u2 u3
  refine ⟨fun h => ?out, fun i hi h => ?jump, fun h => ?arb, fun h => ?hlt⟩
  case out =>
    rcases execOut_cases h with ⟨e, rfl, -⟩ | ⟨-, -, rfl⟩
    · exact ⟨rfl, rfl, rfl, rfl, rfl, .inr ⟨e, rfl⟩⟩
    · exact ⟨rfl, rfl, rfl, rfl, rfl, .inl ⟨rfl, rfl, _, rfl⟩⟩
  case jump =>
    simp only [List.mem_cons, List.not_mem_nil, or_false] at hi
    rcases hi with rfl | rfl
    · exact ((execJt_cases h).imp FaultTaken.eq_takeFault JumpCommit.eq_setPc).symm
    · exact ((execJf_cases h).imp FaultTaken.eq_takeFault JumpCommit.eq_setPc).symm
  case arb =>
    exact ((execArb_cases h).imp FaultTaken.eq_takeFault fun ⟨_, _, _, ht⟩ => ⟨_, _, ht⟩).symm
  case hlt =>
    rw [execHlt_cases h]
    exact ⟨rfl, rfl, rfl, rfl, rfl, rfl, rfl⟩

/-- Settles O33: a cell differs only after an instruction that stored (`exec_mem_cases`), and then only at its target. -/
theorem oneCellPerStep : Obligations.OneCellPerStep := by
  intro s t hm h x hx hne
  rcases step_cases h with ⟨-, rfl⟩ | ⟨-, hf⟩ | ⟨-, i, hi, hexec⟩
  · exact absurd rfl hne
  · exact absurd (State.cell_congr hf.mem_eq x) hne
  · rcases exec_mem_cases hexec with hmem | ⟨p, htarget, r, hst⟩
    · exact absurd (State.cell_congr (s := s) hmem x) hne
    · have atTarget : x = s.address p := by
        by_contra hx'
        exact hne ((hst.cell_eq hm hx).trans (if_neg hx'))
      exact ⟨i, p, hi, htarget, hst.writable, atTarget, op_mem_of_writeTarget htarget⟩

/-! ## The write a later fetch sees -/

theorem execIn_storesAt_of_running {s t : State} {p : Param} (h : execIn p s = .next t) (hrun : t.status = .running) :
    StoresAt s t p (s.inq.headD 0) := by
  rcases execIn_cases h with hf | ⟨-, -, rfl⟩ | ⟨hw, v, rest, hq, -, rfl⟩
  · exact absurd hrun hf.status_ne_running
  · cases hrun
  · exact ⟨hw, by simp [hq]⟩

/-- Settles O35: each of the five that completes stores its result (`StoresAt`), which every later fetch sees. -/
theorem fetchSeesEarlierWrite : Obligations.FetchSeesEarlierWrite := by
  intro s t a b p u2 u3 hm hrun row hrow h
  have noFault : ¬FaultTaken s t := fun hf => hf.status_ne_running hrun
  have stored : StoresAt s t p row.2 := by
    simp only [List.mem_cons, List.not_mem_nil, or_false] at hrow
    rcases hrow with rfl | rfl | rfl | rfl | rfl
    · exact ((execAdd_cases h).resolve_left noFault).2.storesAt
    · exact ((execMul_cases h).resolve_left noFault).2.storesAt
    · simpa [truthWord] using ((execLt_cases h).resolve_left noFault).storesAt
    · simpa [truthWord] using ((execEq_cases h).resolve_left noFault).storesAt
    · exact execIn_storesAt_of_running h hrun
  exact ⟨fun x hx => stored.fetchWord_eq hm hx, stored.next_fetchWord_eq hm⟩

end Sys2Proof.Machine

/-! # The decoder and the encoder (O1 to O7)

A word that gets past the decoder's first checks is `encodeWord` of the opcode and the modes its digits name
(`exists_eq_encodeWord`), and an encoded word decodes by the last check alone (`decodeWord_encodeWord`). So the legal words are
the encodings of the records whose write parameter is not immediate (`decodeWord_eq_ok_iff`), from which the round trips and
the count follow. -/

namespace Sys2Proof

open Machine

/-! ## Opcodes and mode digits -/

/-- `ofNat?` inverts `toNat` (R64). -/
theorem Opcode.ofNat?_eq_some_iff {n : Nat} {op : Opcode} : Opcode.ofNat? n = some op ↔ n = op.toNat := by
  constructor
  · intro h
    unfold Opcode.ofNat? at h
    split at h <;> cases h <;> rfl
  · rintro rfl
    cases op <;> rfl

theorem Opcode.mem_opcodeNumbers_iff {n : Nat} : n ∈ opcodeNumbers ↔ ∃ op : Opcode, n = op.toNat := by
  constructor
  · intro h
    have isSome : ∀ n ∈ opcodeNumbers, (Opcode.ofNat? n).isSome := by decide
    obtain ⟨op, hop⟩ := Option.isSome_iff_exists.mp (isSome n h)
    exact ⟨op, Opcode.ofNat?_eq_some_iff.mp hop⟩
  · rintro ⟨op, rfl⟩
    cases op <;> decide

theorem Opcode.ofNat?_eq_none_iff {n : Nat} : Opcode.ofNat? n = none ↔ n ∉ opcodeNumbers := by
  simp only [Option.eq_none_iff_forall_ne_some, ne_eq, Opcode.ofNat?_eq_some_iff, Opcode.mem_opcodeNumbers_iff, not_exists]

theorem Opcode.toNat_lt (op : Opcode) : op.toNat < 100 := by cases op <;> decide

/-- The write parameter by an opcode's number is that of its format (R62). -/
theorem Opcode.writeParamOfNumber_toNat (op : Opcode) : writeParamOfNumber op.toNat = op.format.wparam := by
  cases op <;> decide

/-- `ofDigit?` inverts `toDigit` (R55). -/
theorem Mode.ofDigit?_eq_some_iff {n : Nat} {m : Mode} : Mode.ofDigit? n = some m ↔ n = m.toDigit := by
  constructor
  · intro h
    unfold Mode.ofDigit? at h
    split at h <;> cases h <;> rfl
  · rintro rfl
    cases m <;> rfl

theorem Mode.toDigit_lt (m : Mode) : m.toDigit < 3 := by cases m <;> decide

theorem Mode.toDigit_eq_one_iff {m : Mode} : m.toDigit = 1 ↔ m = .immediate := by cases m <;> decide

theorem Mode.exists_toDigit_of_lt {n : Nat} (h : n < 3) : ∃ m : Mode, n = m.toDigit := by
  interval_cases n
  · exact ⟨.position, rfl⟩
  · exact ⟨.immediate, rfl⟩
  · exact ⟨.relative, rfl⟩

/-- The digits 3 to 9 are no mode (R56). -/
theorem Mode.ofDigit?_eq_none_of_le {n : Nat} (h : 3 ≤ n) : Mode.ofDigit? n = none := by
  rw [Option.eq_none_iff_forall_ne_some]
  intro m hm
  have := Mode.toDigit_lt m
  have := Mode.ofDigit?_eq_some_iff.mp hm
  omega

/-! ## The fields of an encoded word -/

theorem encodeWord_nonneg (d : Decoded) : 0 ≤ encodeWord d := Int.natCast_nonneg _

theorem encodeWord_lt (d : Decoded) : encodeWord d < 100000 := by
  have := d.op.toNat_lt
  have := d.m1.toDigit_lt
  have := d.m2.toDigit_lt
  have := d.m3.toDigit_lt
  unfold encodeWord
  omega

/-- The low two digits are the opcode (R51). -/
theorem encodeWord_mod (d : Decoded) : (encodeWord d).toNat % 100 = d.op.toNat := by
  have := d.op.toNat_lt
  unfold encodeWord
  omega

/-- `mode[k]` is the digit at position `k + 1` (R51). -/
theorem digit_encodeWord {d : Decoded} {k : Nat} {m : Mode} (h : d.mode k = some m) :
    digit (encodeWord d).toNat (k + 1) = m.toDigit := by
  have := d.op.toNat_lt
  have := d.m1.toDigit_lt
  have := d.m2.toDigit_lt
  have := d.m3.toDigit_lt
  unfold Decoded.mode at h
  split at h <;> cases h <;> simp only [digit, encodeWord, Int.toNat_natCast] <;> omega

/-- A word with an opcode in its low two digits, a mode in each of the next three and nothing above them is the encoding of
what its digits name (R51, R69). -/
theorem exists_eq_encodeWord {w : Int} (h0 : 0 ≤ w) (hop : w.toNat % 100 ∈ opcodeNumbers) (hlt : w < 100000)
    (hmode : ∀ k, 1 ≤ k → k ≤ 3 → digit w.toNat (k + 1) < 3) : ∃ d, w = encodeWord d := by
  obtain ⟨op, h⟩ := Opcode.mem_opcodeNumbers_iff.mp hop
  obtain ⟨m1, h1⟩ := Mode.exists_toDigit_of_lt (hmode 1 (by decide) (by decide))
  obtain ⟨m2, h2⟩ := Mode.exists_toDigit_of_lt (hmode 2 (by decide) (by decide))
  obtain ⟨m3, h3⟩ := Mode.exists_toDigit_of_lt (hmode 3 (by decide) (by decide))
  refine ⟨⟨op, m1, m2, m3⟩, ?_⟩
  simp only [digit] at h1 h2 h3
  simp only [encodeWord]
  omega

/-! ## The last check: the write parameter's mode (R61) -/

/-- The mode of the write parameter, if there is one. -/
def Decoded.writeMode (d : Decoded) : Option Mode := d.wparam.bind d.mode

theorem Decoded.writeMode_ne_immediate_iff {d : Decoded} :
    d.writeMode ≠ some .immediate ↔ ∀ k, d.wparam = some k → d.mode k ≠ some .immediate := by
  simp [Decoded.writeMode, Option.bind_eq_some_iff]

theorem checkWriteTarget_of_immediate (w : Int) {d : Decoded} {k : Nat} (hk : d.wparam = some k)
    (hm : d.mode k = some .immediate) : checkWriteTarget w d = .error (.immediateWriteTarget w k) := by
  simp [checkWriteTarget, hk, hm]

theorem checkWriteTarget_eq_ok_iff {w : Int} {d e : Decoded} :
    checkWriteTarget w d = .ok e ↔ d.writeMode ≠ some .immediate ∧ e = d := by
  unfold checkWriteTarget
  split
  · next hk => simp [Decoded.writeMode, hk, eq_comm (b := e)]
  · next k hk => split <;> simp [Decoded.writeMode, *, eq_comm (b := e)]

/-! ## The decoder's verdicts (R52, R109) -/

theorem decodeWord_of_neg {w : Int} (h : w < 0) : decodeWord w = .error (.illegalOpcode w) := if_pos h

theorem decodeWord_of_not_opcode {w : Int} (h0 : 0 ≤ w) (hop : w.toNat % 100 ∉ opcodeNumbers) :
    decodeWord w = .error (.illegalOpcode w) := by
  simp [decodeWord, not_lt.mpr h0, Opcode.ofNat?_eq_none_iff.mpr hop]

theorem decodeWord_of_high {w : Int} (h : 100000 ≤ w) (hop : w.toNat % 100 ∈ opcodeNumbers) :
    decodeWord w = .error (.illegalMode w none) := by
  obtain ⟨op, hop⟩ := Opcode.mem_opcodeNumbers_iff.mp hop
  have h0 : ¬w < 0 := by omega
  simp [decodeWord, h0, h, Opcode.ofNat?_eq_some_iff.mpr hop]

/-- The first digit that is no mode names its parameter (R56). -/
theorem decodeWord_of_mode_digit {w : Int} (h0 : 0 ≤ w) (hop : w.toNat % 100 ∈ opcodeNumbers) (hlt : w < 100000) {k : Nat}
    (hk1 : 1 ≤ k) (hk3 : k ≤ 3) (hbad : 3 ≤ digit w.toNat (k + 1))
    (hfirst : ∀ j, 1 ≤ j → j < k → digit w.toNat (j + 1) < 3) : decodeWord w = .error (.illegalMode w (some k)) := by
  obtain ⟨op, hop⟩ := Opcode.mem_opcodeNumbers_iff.mp hop
  have earlier : ∀ j, 1 ≤ j → j < k → ∃ m, Mode.ofDigit? (digit w.toNat (j + 1)) = some m := fun j h1 hjk =>
    (Mode.exists_toDigit_of_lt (hfirst j h1 hjk)).imp fun _ => Mode.ofDigit?_eq_some_iff.mpr
  have hnone := Mode.ofDigit?_eq_none_of_le hbad
  unfold decodeWord
  rw [if_neg (not_lt.mpr h0), Opcode.ofNat?_eq_some_iff.mpr hop]
  simp only [if_neg (not_le.mpr hlt)]
  obtain rfl | rfl | rfl : k = 1 ∨ k = 2 ∨ k = 3 := by omega
  · simp only [hnone]
  · obtain ⟨m1, h1⟩ := earlier 1 (by decide) (by decide)
    simp only [h1, hnone]
  · obtain ⟨m1, h1⟩ := earlier 1 (by decide) (by decide)
    obtain ⟨m2, h2⟩ := earlier 2 (by decide) (by decide)
    simp only [h1, h2, hnone]

/-- On an encoded word only the last check is left to make. -/
theorem decodeWord_encodeWord (d : Decoded) : decodeWord (encodeWord d) = checkWriteTarget (encodeWord d) d := by
  have hop := Opcode.ofNat?_eq_some_iff.mpr (encodeWord_mod d)
  have h1 := Mode.ofDigit?_eq_some_iff.mpr (digit_encodeWord (d := d) (k := 1) rfl)
  have h2 := Mode.ofDigit?_eq_some_iff.mpr (digit_encodeWord (d := d) (k := 2) rfl)
  have h3 := Mode.ofDigit?_eq_some_iff.mpr (digit_encodeWord (d := d) (k := 3) rfl)
  unfold decodeWord
  rw [if_neg (not_lt.mpr (encodeWord_nonneg d)), hop]
  simp only [if_neg (not_le.mpr (encodeWord_lt d)), h1, h2, h3]

/-- A word with a bad mode digit has a first one. -/
theorem exists_first_mode_digit {n : Nat} (h : ¬∀ k, 1 ≤ k → k ≤ 3 → digit n (k + 1) < 3) :
    ∃ k, 1 ≤ k ∧ k ≤ 3 ∧ 3 ≤ digit n (k + 1) ∧ ∀ j, 1 ≤ j → j < k → digit n (j + 1) < 3 := by
  have bad : ∃ k, 1 ≤ k ∧ k ≤ 3 ∧ 3 ≤ digit n (k + 1) := by simpa using h
  obtain ⟨hk1, hk3, hbad⟩ := Nat.find_spec bad
  refine ⟨_, hk1, hk3, hbad, fun j h1 hj => not_le.mp fun hbadj => Nat.find_min bad hj ⟨h1, by omega, hbadj⟩⟩

/-- Every integer raises a decode fault or is the encoding of a record. -/
theorem decodeWord_error_or_encoded (w : Int) : (∃ e, decodeWord w = .error e) ∨ ∃ d, w = encodeWord d := by
  by_cases h0 : w < 0
  · exact .inl ⟨_, decodeWord_of_neg h0⟩
  by_cases hop : w.toNat % 100 ∈ opcodeNumbers
  case neg => exact .inl ⟨_, decodeWord_of_not_opcode (not_lt.mp h0) hop⟩
  by_cases hlt : w < 100000
  case neg => exact .inl ⟨_, decodeWord_of_high (not_lt.mp hlt) hop⟩
  by_cases hmode : ∀ k, 1 ≤ k → k ≤ 3 → digit w.toNat (k + 1) < 3
  · exact .inr (exists_eq_encodeWord (not_lt.mp h0) hop hlt hmode)
  · obtain ⟨k, hk1, hk3, hbad, hfirst⟩ := exists_first_mode_digit hmode
    exact .inl ⟨_, decodeWord_of_mode_digit (not_lt.mp h0) hop hlt hk1 hk3 hbad hfirst⟩

/-- The legal words are the encodings of the records whose write parameter is not immediate (R68, R69). -/
theorem decodeWord_eq_ok_iff {w : Int} {d : Decoded} :
    decodeWord w = .ok d ↔ w = encodeWord d ∧ d.writeMode ≠ some .immediate := by
  constructor
  · intro h
    rcases decodeWord_error_or_encoded w with ⟨e, he⟩ | ⟨d', rfl⟩
    · cases he.symm.trans h
    · obtain ⟨hmode, rfl⟩ := checkWriteTarget_eq_ok_iff.mp ((decodeWord_encodeWord d').symm.trans h)
      exact ⟨rfl, hmode⟩
  · rintro ⟨rfl, hmode⟩
    exact (decodeWord_encodeWord d).trans (checkWriteTarget_eq_ok_iff.mpr ⟨hmode, rfl⟩)

/-! ## Instructions and their cells -/

theorem Param.isWriteTarget_iff (p : Param) : p.isWriteTarget = true ↔ some p.mode ≠ some .immediate := by
  unfold Param.isWriteTarget
  cases p.mode <;> decide

/-- R61's check on an instruction is the decoder's check on its word. -/
theorem Instr.wellFormed_iff {i : Instr} : i.wellFormed = true ↔ i.decoded.writeMode ≠ some .immediate := by
  cases i with
  | add a b t => exact t.isWriteTarget_iff
  | mul a b t => exact t.isWriteTarget_iff
  | inp t u2 u3 => exact t.isWriteTarget_iff
  | lt a b t => exact t.isWriteTarget_iff
  | eq a b t => exact t.isWriteTarget_iff
  | out a u2 u3 => exact iff_of_true rfl nofun
  | jt c d u3 => exact iff_of_true rfl nofun
  | jf c d u3 => exact iff_of_true rfl nofun
  | arb a u2 u3 => exact iff_of_true rfl nofun
  | hlt u1 u2 u3 => exact iff_of_true rfl nofun

theorem Instr.length_paramWords (i : Instr) : i.paramWords.length = i.decoded.nparams := by cases i <;> rfl

/-- An instruction is made again from its record and any cells that begin with its parameter words (R58). -/
theorem Instr.toInstr_decoded (i : Instr) (rest : List Int) :
    i.decoded.toInstr ((i.paramWords ++ rest).getD 0 0) ((i.paramWords ++ rest).getD 1 0) ((i.paramWords ++ rest).getD 2 0)
      = i := by
  cases i <;> rfl

theorem Decoded.decoded_toInstr (d : Decoded) (r1 r2 r3 : Int) : (d.toInstr r1 r2 r3).decoded = d := by
  obtain ⟨op, m1, m2, m3⟩ := d
  cases op <;> rfl

theorem Decoded.paramWords_toInstr (d : Decoded) (r1 r2 r3 : Int) :
    (d.toInstr r1 r2 r3).paramWords = [r1, r2, r3].take d.nparams := by
  obtain ⟨op, m1, m2, m3⟩ := d
  cases op <;> rfl

theorem Decoded.nparams_le (d : Decoded) : d.nparams ≤ 3 := by
  unfold Decoded.nparams
  cases d.op.format <;> decide

/-- Up to three cells read one by one are the list's first cells. -/
theorem take_three_getD {n : Nat} {l : List Int} (h3 : n ≤ 3) (hn : n ≤ l.length) :
    [l.getD 0 0, l.getD 1 0, l.getD 2 0].take n = l.take n := by
  refine List.ext_getElem (by simp [h3, hn]) fun i hi hi' => ?_
  have ⟨hin, hil⟩ : i < n ∧ i < l.length := by simpa using hi'
  have hlt : i < 3 := lt_of_lt_of_le hin h3
  interval_cases i <;> simp [hil]

/-- What a list of cells decodes to (R50, R67). -/
theorem decode_cons_eq_ok_iff {w : Int} {tail rest : List Int} {i : Instr} :
    decode (w :: tail) = .ok (i, rest) ↔ ∃ d, decodeWord w = .ok d ∧ d.nparams ≤ tail.length ∧
      i = d.toInstr (tail.getD 0 0) (tail.getD 1 0) (tail.getD 2 0) ∧ rest = tail.drop d.nparams := by
  simp only [decode]
  cases decodeWord w with
  | error e => simp
  | ok d =>
    by_cases hlen : d.nparams ≤ tail.length
    · simp [hlen, not_lt.mpr hlen, eq_comm (a := i), eq_comm (a := rest)]
    · simp [hlen, not_le.mp hlen]

/-- Settles O6: the word decodes to the instruction's record (`decodeWord_eq_ok_iff`), from which `toInstr` makes the
instruction again. -/
theorem decodeOfEncode : Obligations.DecodeOfEncode := by
  intro i rest hwf
  have hword : decodeWord (encodeWord i.decoded) = .ok i.decoded :=
    decodeWord_eq_ok_iff.mpr ⟨rfl, Instr.wellFormed_iff.mp hwf⟩
  refine decode_cons_eq_ok_iff.mpr ⟨i.decoded, hword, ?_, (i.toInstr_decoded rest).symm, ?_⟩
  · simp [← i.length_paramWords]
  · exact (List.drop_left' i.length_paramWords).symm

/-- Settles O7: the record and the parameter words of the instruction made are those that were read. -/
theorem encodeOfDecode : Obligations.EncodeOfDecode := by
  intro cells rest i h
  cases cells with
  | nil => cases h
  | cons w tail =>
    obtain ⟨d, hd, hlen, rfl, rfl⟩ := decode_cons_eq_ok_iff.mp h
    obtain ⟨rfl, hmode⟩ := decodeWord_eq_ok_iff.mp hd
    refine ⟨Instr.wellFormed_iff.mpr (by rwa [Decoded.decoded_toInstr]), ?_⟩
    rw [encode, Decoded.decoded_toInstr, Decoded.paramWords_toInstr, take_three_getD d.nparams_le hlen, List.cons_append,
      List.take_append_drop]

/-! ## Instruction words -/

/-- The write parameter is immediate exactly where its digit is 1 (R51, R61). -/
theorem digit_encodeWord_eq_one_iff {d : Decoded} {k : Nat} (hk : d.wparam = some k) :
    digit (encodeWord d).toNat (k + 1) = 1 ↔ d.mode k = some .immediate := by
  obtain ⟨m, hm⟩ : ∃ m, d.mode k = some m := by
    unfold Decoded.wparam at hk
    revert hk
    cases d.op.format <;> rintro ⟨⟩ <;> exact ⟨_, rfl⟩
  rw [digit_encodeWord hm, Mode.toDigit_eq_one_iff, hm, Option.some_inj]

theorem writeParamOfNumber_encodeWord (d : Decoded) : writeParamOfNumber ((encodeWord d).toNat % 100) = d.wparam := by
  rw [encodeWord_mod, Opcode.writeParamOfNumber_toNat, Decoded.wparam]

/-- Settles O3: one verdict for each check of R52 in its order; a word that passes all but the last is an encoded one. -/
theorem decodeVerdictOnEveryWord : Obligations.DecodeVerdictOnEveryWord := by
  intro w
  refine ⟨decodeWord_of_neg, decodeWord_of_not_opcode, fun h0 hop => ⟨fun h => decodeWord_of_high h hop, fun hlt =>
    ⟨fun k hk1 hk3 => decodeWord_of_mode_digit h0 hop hlt hk1 hk3, fun hmode => ?_⟩⟩⟩
  obtain ⟨d, rfl⟩ := exists_eq_encodeWord h0 hop hlt hmode
  rw [writeParamOfNumber_encodeWord]
  constructor
  · intro k hk hone
    rw [decodeWord_encodeWord, checkWriteTarget_of_immediate _ hk ((digit_encodeWord_eq_one_iff hk).mp hone)]
  · intro hlegal
    have hwrite : d.writeMode ≠ some .immediate := Decoded.writeMode_ne_immediate_iff.mpr fun k hk =>
      mt (digit_encodeWord_eq_one_iff hk).mpr (hlegal k hk)
    exact ⟨d, decodeWord_eq_ok_iff.mpr ⟨rfl, hwrite⟩, (encodeWord_mod d).symm, (digit_encodeWord (k := 1) rfl).symm,
      (digit_encodeWord (k := 2) rfl).symm, (digit_encodeWord (k := 3) rfl).symm⟩

/-- Settles O4: by `decodeWord_encodeWord` and, for the legal words, `decodeWord_eq_ok_iff`. -/
theorem instructionWordRoundTrip : Obligations.InstructionWordRoundTrip := by
  intro d
  refine ⟨by simp [encodeWord], fun hlegal => ?_, fun k hk hm => ?_, fun w hw => ?_⟩
  · exact decodeWord_eq_ok_iff.mpr ⟨rfl, Decoded.writeMode_ne_immediate_iff.mpr hlegal⟩
  · rw [decodeWord_encodeWord, checkWriteTarget_of_immediate _ hk hm]
  · exact (decodeWord_eq_ok_iff.mp hw).1.symm

/-! ## The legal words, counted (R70) -/

/-- The three modes (R55). -/
def Mode.all : List Mode := [.position, .immediate, .relative]

/-- The ten opcodes (R54). -/
def Opcode.all : List Opcode := [.add, .mul, .inp, .out, .jt, .jf, .lt, .eq, .arb, .hlt]

theorem Mode.mem_all (m : Mode) : m ∈ Mode.all := by cases m <;> decide

theorem Opcode.mem_all (op : Opcode) : op ∈ Opcode.all := by cases op <;> decide

/-- The record of an opcode and three modes. -/
def Decoded.ofFields (f : Opcode × Mode × Mode × Mode) : Decoded := ⟨f.1, f.2.1, f.2.2.1, f.2.2.2⟩

theorem Decoded.ofFields_injective : Function.Injective Decoded.ofFields := by
  rintro ⟨op, m1, m2, m3⟩ ⟨op', m1', m2', m3'⟩ h
  cases h
  rfl

/-- The records of some opcodes whose write parameter is not immediate. -/
def legalRecords (ops : List Opcode) : List Decoded :=
  ((ops ×ˢ Mode.all ×ˢ Mode.all ×ˢ Mode.all).map Decoded.ofFields).filter fun d => d.writeMode ≠ some .immediate

theorem mem_legalRecords {ops : List Opcode} {d : Decoded} :
    d ∈ legalRecords ops ↔ d.op ∈ ops ∧ d.writeMode ≠ some .immediate := by
  obtain ⟨op, m1, m2, m3⟩ := d
  simp [legalRecords, Decoded.ofFields, Mode.mem_all]

theorem nodup_legalRecords {ops : List Opcode} (h : ops.Nodup) : (legalRecords ops).Nodup := by
  have modes : Mode.all.Nodup := by decide
  exact ((h.product (modes.product (modes.product modes))).map Decoded.ofFields_injective).filter _

/-- The legal words of some opcodes. -/
def legalWords (ops : List Opcode) : List Int := (legalRecords ops).map encodeWord

theorem mem_legalWords {ops : List Opcode} {w : Int} : w ∈ legalWords ops ↔ ∃ d, d.op ∈ ops ∧ decodeWord w = .ok d := by
  simp only [legalWords, List.mem_map, mem_legalRecords, decodeWord_eq_ok_iff, and_assoc, eq_comm (b := w)]
  exact exists_congr fun _ => and_congr_right fun _ => and_comm

/-- Different legal records have different words, since each decodes to its own record. -/
theorem nodup_legalWords {ops : List Opcode} (h : ops.Nodup) : (legalWords ops).Nodup := by
  refine (nodup_legalRecords h).map_on fun d hd e he heq => ?_
  have hd := decodeWord_eq_ok_iff.mpr ⟨rfl, (mem_legalRecords.mp hd).2⟩
  have he := decodeWord_eq_ok_iff.mpr ⟨heq, (mem_legalRecords.mp he).2⟩
  exact Except.ok.inj (hd.symm.trans he)

theorem length_legalWords_opcode (op : Opcode) :
    (legalWords [op]).length = if op.format.wparam = none then 27 else 18 := by
  cases op <;> rfl

theorem length_legalWords_cons (op : Opcode) (ops : List Opcode) :
    (legalWords (op :: ops)).length = (legalWords [op]).length + (legalWords ops).length := by
  simp [legalWords, legalRecords, List.product_cons]

/-- R70: five opcodes have a write parameter and five have none. -/
theorem length_legalWords_all : (legalWords Opcode.all).length = 5 * 18 + 5 * 27 := by
  simp only [Opcode.all, length_legalWords_cons _ (_ :: _), length_legalWords_opcode]
  decide

/-- Settles O5: the legal words of an opcode, and of all ten, are `legalWords`. -/
theorem legalWordCount : Obligations.LegalWordCount := by
  have legal (w : Int) : w ∈ legalWords Opcode.all ↔ ∃ d, decodeWord w = .ok d := by
    simp [mem_legalWords, Opcode.mem_all]
  refine ⟨fun op => ⟨legalWords [op], nodup_legalWords (List.nodup_singleton op), length_legalWords_opcode op, fun w => ?_⟩,
    legalWords Opcode.all, nodup_legalWords (by decide), length_legalWords_all, fun w => ⟨legal w, ?_⟩⟩
  · rw [mem_legalWords]
    constructor
    · rintro ⟨⟨op', m1, m2, m3⟩, hop, hw⟩
      cases List.mem_singleton.mp hop
      exact ⟨m1, m2, m3, hw⟩
    · rintro ⟨m1, m2, m3, hw⟩
      exact ⟨_, List.mem_singleton.mpr rfl, hw⟩
  · rw [legal]
    cases decodeWord w <;> simp

/-- Settles O1, by evaluating the decoder on the words it names. -/
theorem writtenWordsDecode : Obligations.WrittenWordsDecode := by
  unfold Obligations.WrittenWordsDecode
  decide

/-- Settles O2: the ten rows are read off the tables; the other numbers by `Opcode.ofNat?_eq_none_iff`. -/
theorem opcodeMapAndFormats : Obligations.OpcodeMapAndFormats :=
  ⟨by decide, fun _ => Opcode.ofNat?_eq_none_iff.mpr⟩

end Sys2Proof

/-! # Operands by mode (O9, O10)

Only a relative parameter computes an address, so only there the range check stands before the address check. -/

namespace Sys2Proof.Machine

theorem checked_of_inRange {model : IntModel} {v : Int} (h : InRange model v) : checked model v = .ok v :=
  checked_eq_ok.mpr ⟨h, rfl⟩

theorem checked_of_not_inRange {model : IntModel} {v : Int} (h : ¬InRange model v) :
    checked model v = .error (.overflow v) :=
  checked_eq_error.mpr ⟨h, rfl⟩

/-- A write target's address once it is computed (R35, R60). -/
theorem checkAddress_bind_ok (a : Int) :
    (checkAddress a >>= fun _ => .ok a) = if a < 0 then .error (.invalidAddress a) else .ok a := by
  unfold checkAddress
  split <;> rfl

theorem readParam_relative_of_inRange {s : State} {v : Int} (h : InRange s.intModel (s.rb + v)) :
    readParam s ⟨.relative, v⟩ = memRead s.mem (s.rb + v) := by
  simp only [readParam, checked_of_inRange h, ok_bind]

/-- Settles O9: the modes are the cases of `readParam`, the relative one by its range check. -/
theorem readParamByMode : Obligations.ReadParamByMode := by
  intro s v
  refine ⟨rfl, rfl, readParam_relative_of_inRange, readParam_relative_of_inRange, fun h => ?_⟩
  exact readParam_eq_error.mpr (.inl ⟨h, rfl⟩)

/-- Settles O10: the modes are the cases of `writeAddr`; where an address is named, `checkAddress_bind_ok` is its check. -/
theorem writeAddrByMode : Obligations.WriteAddrByMode := by
  intro s k v
  refine ⟨rfl, checkAddress_bind_ok v, fun h => ?_, fun h => ?_⟩
  · simp only [writeAddr, checked_of_inRange h, ok_bind, checkAddress_bind_ok]
  · exact (writeAddr_eq_error (by simp)).mpr (.inl ⟨h, rfl⟩)

end Sys2Proof.Machine

/-! # Arithmetic (O11)

Where its three parameters resolve, the shape `RRW` is only the result's own check and then the check of `pc + 4`. ADD and
MUL are that shape for an exact operation on the integers, so their clauses are proved once, for any such operation. -/

namespace Sys2Proof.Machine

section Resolved
variable {s : State} {a b t : Param}

/-- Two reads and a store whose parameters resolve: the result, then the advance, then the commit (R91, R109). -/
theorem storeBinary_of_resolved (ha : s.Readable a) (hb : s.Readable b) (ht : s.Writable t)
    (f : Int → Int → Except FaultCause Int) :
    storeBinary s a b t f = (do
      let r ← f (s.value a) (s.value b)
      let p ← advance s Format.RRW.width
      .ok { s with mem := Memory.write s.mem (s.address t).toNat r, pc := p }) := by
  have hx := readParam_eq_ok.mpr ⟨ha, rfl⟩
  have hy := readParam_eq_ok.mpr ⟨hb, rfl⟩
  have haddr : writeAddr s 3 t = .ok (s.address t) := writeAddr_eq_ok.mpr ⟨ht, rfl⟩
  have hmem : ∀ r, memWrite s.mem (s.address t) r = .ok (Memory.write s.mem (s.address t).toNat r) :=
    fun _ => memWrite_eq_ok.mpr ⟨ht.address_nonneg, rfl⟩
  simp only [storeBinary, hx, hy, haddr, hmem, ok_bind]

/-- An exact operation whose result and next `pc` are in range commits that result (R74). -/
theorem storeBinary_checked_of_inRange (ha : s.Readable a) (hb : s.Readable b) (ht : s.Writable t) (op : Int → Int → Int)
    (hr : InRange s.intModel (op (s.value a) (s.value b))) (hpc : InRange s.intModel (s.pc + 4)) :
    storeBinary s a b t (fun x y => checked s.intModel (op x y)) =
      .ok { s with mem := Memory.write s.mem (s.address t).toNat (op (s.value a) (s.value b)), pc := s.pc + 4 } :=
  storeBinary_eq_ok.mpr ⟨ha, hb, ht, hpc, _, checked_of_inRange hr, rfl⟩

/-- An exact operation whose result is out of range raises `Overflow` with it, wherever `pc + 4` lies (R74, R109). -/
theorem storeBinary_checked_of_not_inRange (ha : s.Readable a) (hb : s.Readable b) (ht : s.Writable t)
    (op : Int → Int → Int) (hr : ¬InRange s.intModel (op (s.value a) (s.value b))) :
    storeBinary s a b t (fun x y => checked s.intModel (op x y)) = .error (.overflow (op (s.value a) (s.value b))) := by
  rw [storeBinary_of_resolved ha hb ht, checked_of_not_inRange hr, error_bind]

end Resolved

/-- Settles O11: ADD and MUL conclude `storeBinary` with a checked sum and product, so each clause is one of the two
`storeBinary_checked` lemmas at that operation. -/
theorem addMulAreExact : Obligations.AddMulAreExact := by
  intro s a b t ha hb ht
  refine ⟨fun hr hpc => ?_, fun hr hpc => ?_, fun hr => ?_, fun hr => ?_⟩
  · exact congrArg (conclude s) (storeBinary_checked_of_inRange ha hb ht (· + ·) hr hpc)
  · exact congrArg (conclude s) (storeBinary_checked_of_inRange ha hb ht (· * ·) hr hpc)
  · exact congrArg (conclude s) (storeBinary_checked_of_not_inRange ha hb ht (· + ·) hr)
  · exact congrArg (conclude s) (storeBinary_checked_of_not_inRange ha hb ht (· * ·) hr)

end Sys2Proof.Machine

/-! # Input, output and the relative base: effects and faults (O13, O14, O21, O22)

IN is read off one equation for each answer of its target and its queue; OUT and ARB off the states their checks commit and,
beside them, the faults they raise in the order of R109. -/

namespace Sys2Proof.Machine

/-- Only an effective address raises an address fault, and an immediate parameter has none (R39). -/
theorem State.AddressFault.mode_ne_immediate {s : State} {p : Param} {c : FaultCause} (h : s.AddressFault p c) :
    p.mode ≠ .immediate := by
  intro hm
  simp [State.AddressFault, hm] at h

/-! ## IN (R77) -/

section In
variable {s : State} {t : Param} {v : Int} {rest : List Int}

theorem execIn_of_addressFault {c : FaultCause} (h : s.AddressFault t c) : execIn t s = .next (s.takeFault c) := by
  have hres : writeAddr s 1 t = .error c := (writeAddr_eq_error h.mode_ne_immediate).mpr h
  simp only [execIn, hres]

theorem execIn_of_inq_nil (ht : s.Writable t) (hq : s.inq = []) :
    execIn t s = .next { s with status := .awaitingInput } := by
  have hres : writeAddr s 1 t = .ok (s.address t) := writeAddr_eq_ok.mpr ⟨ht, rfl⟩
  simp only [execIn, hres, hq]

theorem execIn_of_inq_cons (ht : s.Writable t) (hq : s.inq = v :: rest) :
    execIn t s = conclude s (storeInput s (s.address t) v rest) := by
  have hres : writeAddr s 1 t = .ok (s.address t) := writeAddr_eq_ok.mpr ⟨ht, rfl⟩
  simp only [execIn, hres, hq]

/-- The advance is checked before the store (R109, point 11), so its overflow is the fault whatever the address. -/
theorem storeInput_of_not_inRange {addr : Int} (hpc : ¬InRange s.intModel (s.pc + 2)) :
    storeInput s addr v rest = .error (.overflow (s.pc + 2)) :=
  bind_eq_error.mpr (.inl (advance_eq_error.mpr ⟨hpc, rfl⟩))

end In

/-- Settles O13: with an element in the queue IN is `storeInput`, which commits where `pc + 2` is in range. -/
theorem inStoresQueueHead : Obligations.InStoresQueueHead := by
  intro s t u2 u3 v rest ht hq hpc
  have hstore := storeInput_eq_ok (v := v) (rest := rest).mpr ⟨hpc, ht.address_nonneg, rfl⟩
  exact (execIn_of_inq_cons ht hq).trans (congrArg (conclude s) hstore)

/-- Settles O21: the clauses are the answers of IN in the order of its checks: the target, the queue, `pc + 2`. -/
theorem inFaultOrder : Obligations.InFaultOrder := by
  intro s t u2 u3 c
  refine ⟨execIn_of_addressFault, execIn_of_inq_nil, fun ht hne hpc => ?_⟩
  obtain ⟨v, rest, hq⟩ := List.exists_cons_of_ne_nil hne
  exact (execIn_of_inq_cons ht hq).trans (congrArg (conclude s) (storeInput_of_not_inRange hpc))

/-! ## OUT and ARB (R78, R83) -/

/-- The faults of an output: its parameter's, then the overflow of `pc + 2` (R109, points 6 and 11). -/
theorem emitOutput_eq_error {s : State} {a : Param} {c : FaultCause} :
    emitOutput s a = .error c ↔
      s.AddressFault a c ∨ s.Readable a ∧ ¬InRange s.intModel (s.pc + 2) ∧ c = .overflow (s.pc + 2) := by
  simp [emitOutput, bind_eq_error, readParam_eq_error, readParam_eq_ok, advance_eq_error, Format.width, Format.nparams]

/-- The faults of an adjustment of the base: its parameter's, then the overflow of the new base, then that of `pc + 2`
(R109, points 6, 10 and 11). -/
theorem adjustBase_eq_error {s : State} {a : Param} {c : FaultCause} :
    adjustBase s a = .error c ↔
      s.AddressFault a c ∨ s.Readable a ∧
        (¬InRange s.intModel (s.rb + s.value a) ∧ c = .overflow (s.rb + s.value a) ∨
         InRange s.intModel (s.rb + s.value a) ∧ ¬InRange s.intModel (s.pc + 2) ∧ c = .overflow (s.pc + 2)) := by
  simp [adjustBase, bind_eq_error, readParam_eq_error, readParam_eq_ok, checked_eq_error, checked_eq_ok,
    advance_eq_error, Format.width, Format.nparams, and_assoc]

/-- Settles O14: OUT concludes `emitOutput`, which commits where the parameter resolves and `pc + 2` is in range. -/
theorem outAppendsAndSuspends : Obligations.OutAppendsAndSuspends := by
  intro s a u2 u3 ha hpc
  exact congrArg (conclude s) (emitOutput_eq_ok.mpr ⟨ha, hpc, rfl⟩)

/-- Settles O22: the clauses are the first and the last case of `emitOutput_eq_error` and of `adjustBase_eq_error`. -/
theorem outArbFaultOrder : Obligations.OutArbFaultOrder := by
  intro s a u2 u3 c
  refine ⟨fun i hi hc => ?param, fun ha hpc => ⟨?out, fun hrb => ?arb⟩⟩
  case param =>
    simp only [List.mem_cons, List.not_mem_nil, or_false] at hi
    rcases hi with rfl | rfl
    · exact congrArg (conclude s) (emitOutput_eq_error.mpr (.inl hc))
    · exact congrArg (conclude s) (adjustBase_eq_error.mpr (.inl hc))
  case out => exact congrArg (conclude s) (emitOutput_eq_error.mpr (.inr ⟨ha, hpc, rfl⟩))
  case arb => exact congrArg (conclude s) (adjustBase_eq_error.mpr (.inr ⟨ha, .inr ⟨hrb, hpc, rfl⟩⟩))

end Sys2Proof.Machine

/-! # Jumps: effects and faults (O15, O16, O20)

JT and JF are the shape `RR` with opposite tests, so each clause is proved once for any test: the states the shape commits,
taken and untaken, are `jumpWhen_eq_ok`'s, and beside them stand the faults it raises in the order of R109. -/

namespace Sys2Proof.Machine

section JumpWhen
variable {s : State} {c d : Param} {test : Int → Bool}

/-- A taken jump loads `pc` with its target, which is not checked, nor is `pc + 3` (R66, R79, R80). -/
theorem jumpWhen_of_taken (hc : s.Readable c) (hd : s.Readable d) (ht : test (s.value c) = true) :
    jumpWhen s c d test = .ok { s with pc := s.value d } :=
  jumpWhen_eq_ok.mpr ⟨hc, hd, .inl ⟨ht, rfl⟩⟩

/-- An untaken jump falls through past its three words (R66, R79, R80). -/
theorem jumpWhen_of_untaken (hc : s.Readable c) (hd : s.Readable d) (ht : test (s.value c) = false)
    (hpc : InRange s.intModel (s.pc + 3)) : jumpWhen s c d test = .ok { s with pc := s.pc + 3 } :=
  jumpWhen_eq_ok.mpr ⟨hc, hd, .inr ⟨ht, hpc, rfl⟩⟩

/-- Only the fall through of an untaken jump can fault where a jump goes (R66, R109, point 11). -/
theorem jumpTarget_eq_error {y : Int} {taken : Bool} {e : FaultCause} :
    jumpTarget s y taken = .error e ↔ taken = false ∧ ¬InRange s.intModel (s.pc + 3) ∧ e = .overflow (s.pc + 3) := by
  cases taken with
  | true => simp [jumpTarget]
  | false =>
    simp only [jumpTarget, Bool.false_eq_true, if_false, true_and]
    exact advance_eq_error

/-- The faults of a conditional jump: its condition's, its target's whether or not the jump is taken, then the overflow of
`pc + 3` where it is not (R109, points 6, 7 and 11). -/
theorem jumpWhen_eq_error {e : FaultCause} :
    jumpWhen s c d test = .error e ↔
      s.AddressFault c e ∨ s.Readable c ∧
        (s.AddressFault d e ∨ s.Readable d ∧
          test (s.value c) = false ∧ ¬InRange s.intModel (s.pc + 3) ∧ e = .overflow (s.pc + 3)) := by
  simp [jumpWhen, bind_eq_error, readParam_eq_error, readParam_eq_ok, jumpTarget_eq_error]

theorem jumpWhen_of_conditionFault {e : FaultCause} (hc : s.AddressFault c e) : jumpWhen s c d test = .error e :=
  jumpWhen_eq_error.mpr (.inl hc)

theorem jumpWhen_of_targetFault {e : FaultCause} (hc : s.Readable c) (hd : s.AddressFault d e) :
    jumpWhen s c d test = .error e :=
  jumpWhen_eq_error.mpr (.inr ⟨hc, .inl hd⟩)

theorem jumpWhen_of_untaken_not_inRange (hc : s.Readable c) (hd : s.Readable d) (ht : test (s.value c) = false)
    (hpc : ¬InRange s.intModel (s.pc + 3)) : jumpWhen s c d test = .error (.overflow (s.pc + 3)) :=
  jumpWhen_eq_error.mpr (.inr ⟨hc, .inr ⟨hd, ht, hpc, rfl⟩⟩)

/-- Both jumps are `jumpWhen`, each with its own test (R79, R80). -/
theorem exec_eq_conclude_jumpWhen {u3 : Mode} {i : Instr} (hi : i ∈ [Instr.jt c d u3, .jf c d u3]) :
    ∃ test, exec i s = conclude s (jumpWhen s c d test) := by
  simp only [List.mem_cons, List.not_mem_nil, or_false] at hi
  rcases hi with rfl | rfl
  · exact ⟨_, rfl⟩
  · exact ⟨_, rfl⟩

end JumpWhen

/-- Settles O15: JT concludes `jumpWhen` with the test `≠ 0`, which is taken in the first clause and not in the second. -/
theorem jtJumpsWhenNotZero : Obligations.JtJumpsWhenNotZero := by
  intro s c d u3 hc hd
  refine ⟨fun hx => ?taken, fun hx hpc => ?untaken⟩
  case taken => exact congrArg (conclude s) (jumpWhen_of_taken hc hd (decide_eq_true hx))
  case untaken => exact congrArg (conclude s) (jumpWhen_of_untaken hc hd (decide_eq_false (not_not.mpr hx)) hpc)

/-- Settles O16: JF concludes `jumpWhen` with the test `= 0`, which is taken in the first clause and not in the second. -/
theorem jfJumpsWhenZero : Obligations.JfJumpsWhenZero := by
  intro s c d u3 hc hd
  refine ⟨fun hx => ?taken, fun hx hpc => ?untaken⟩
  case taken => exact congrArg (conclude s) (jumpWhen_of_taken hc hd (decide_eq_true hx))
  case untaken => exact congrArg (conclude s) (jumpWhen_of_untaken hc hd (decide_eq_false hx) hpc)

/-- Settles O20: the clauses are the cases of `jumpWhen_eq_error` in order. The parameters' faults do not depend on the test,
so they are shown for both jumps at once; the last one is each jump's own, where its test fails. -/
theorem jumpFaultOrder : Obligations.JumpFaultOrder := by
  intro s c d u3 e
  refine ⟨fun i hi => ?params, fun hc hd hpc => ⟨fun hx => ?jt, fun hx => ?jf⟩⟩
  case params =>
    obtain ⟨test, hexec⟩ := exec_eq_conclude_jumpWhen (s := s) hi
    rw [hexec]
    exact ⟨fun hc => congrArg (conclude s) (jumpWhen_of_conditionFault hc),
      fun hc hd => congrArg (conclude s) (jumpWhen_of_targetFault hc hd)⟩
  case jt =>
    exact congrArg (conclude s) (jumpWhen_of_untaken_not_inRange hc hd (decide_eq_false (not_not.mpr hx)) hpc)
  case jf => exact congrArg (conclude s) (jumpWhen_of_untaken_not_inRange hc hd (decide_eq_false hx) hpc)

end Sys2Proof.Machine

/-! # Comparison (O12)

LT and EQ are the shape `RRW` for a decided comparison, whose truth word needs no check of its own. -/

namespace Sys2Proof.Machine

theorem truthWord_decide (p : Prop) [Decidable p] : truthWord (decide p) = if p then 1 else 0 := by
  simp only [truthWord, decide_eq_true_eq]

/-- A comparison whose next `pc` is in range commits 1 where it holds and 0 where it does not (R81, R82). -/
theorem storeBinary_truthWord {s : State} {a b t : Param} (ha : s.Readable a) (hb : s.Readable b) (ht : s.Writable t)
    (rel : Int → Int → Prop) [DecidableRel rel] (hpc : InRange s.intModel (s.pc + 4)) :
    storeBinary s a b t (fun x y => .ok (truthWord (decide (rel x y)))) =
      .ok { s with
        mem := Memory.write s.mem (s.address t).toNat (if rel (s.value a) (s.value b) then 1 else 0), pc := s.pc + 4 } :=
  storeBinary_eq_ok.mpr ⟨ha, hb, ht, hpc, _, congrArg Except.ok (truthWord_decide _), rfl⟩

/-- Settles O12: LT and EQ conclude `storeBinary` with the truth word of `<` and of `=`, which `storeBinary_truthWord`
commits. -/
theorem ltEqWriteTruth : Obligations.LtEqWriteTruth := by
  intro s a b t ha hb ht hpc
  constructor
  · exact congrArg (conclude s) (storeBinary_truthWord ha hb ht (· < ·) hpc)
  · exact congrArg (conclude s) (storeBinary_truthWord ha hb ht (· = ·) hpc)

end Sys2Proof.Machine

/-! # The relative base (O17)

ARB is `adjustBase` concluded: what it commits is `adjustBase_eq_ok`'s, and its own fault, the overflow of the new base, is
the middle case of `adjustBase_eq_error`. -/

namespace Sys2Proof.Machine

/-- Settles O17: a new base in range is committed with `pc + 2` (R83); one out of range is the fault, whatever `pc + 2` is,
since the base is checked first (R109). -/
theorem arbAddsToBase : Obligations.ArbAddsToBase := by
  intro s a u2 u3 ha
  refine ⟨fun hrb hpc => ?commit, fun hrb => ?overflow⟩
  case commit => exact congrArg (conclude s) (adjustBase_eq_ok.mpr ⟨ha, hrb, hpc, rfl⟩)
  case overflow => exact congrArg (conclude s) (adjustBase_eq_error.mpr (.inr ⟨ha, .inl ⟨hrb, rfl⟩⟩))

end Sys2Proof.Machine

/-! # Halting (O18)

HLT is the one instruction that cannot fault: it reads no parameter, resolves no address and leaves `pc` at the halt, so its
effect is stated without hypotheses. -/

namespace Sys2Proof.Machine

/-- Settles O18: `exec` hands HLT to `execHlt`, dropping the three unused digits, and `execHlt` sets `halted` and `status`
alone (R84). Both steps are by definition. -/
theorem hltHalts : Obligations.HltHalts := by
  intro s u1 u2 u3
  calc exec (.hlt u1 u2 u3) s
    _ = execHlt s := rfl
    _ = .next { s with halted := true, status := .halted } := rfl

end Sys2Proof.Machine

/-! # The results of a step (O29)

`ExecResult` says what an instruction can leave behind, by the result R92 gives it: the instruction's own `_cases` lemma names
the constructor, and `report` reads the result off the status. -/

namespace Sys2Proof.Machine

/-! ## The result a status stands for (R24, R92) -/

section Report
variable {t : State}

theorem report_of_running (h : t.status = .running) : report t = .continued := by rw [report, h]

theorem report_of_suspended (h : t.status = .suspended) : report t = .output t.outbuf.getLast? := by rw [report, h]

theorem status_of_report_output {v : Option Int} (h : report t = .output v) : t.status = .suspended := by
  cases hst : t.status with
  | suspended => rfl
  | _ => simp [report, hst] at h

/-- A stopped machine reports its halt or its record, and neither is an output (R95, R96). -/
theorem report_of_stopped (h : t.stopped = true) : report t = .halted ∨ report t = .fault t.fault := by
  rcases (State.stopped_eq_true_iff t).mp h with hst | hst
  · left; rw [report, hst]
  · right; rw [report, hst]

end Report

/-! ## What an instruction leaves, by its result -/

/-- What instruction `i` makes of the machine `s`, by the result R92 gives it. -/
inductive ExecResult (i : Instr) (s t : State) : Prop where
  | continued (hout : i.decoded.op ≠ .out) (hhlt : i.decoded.op ≠ .hlt) (status : t.status = s.status)
      (outbuf : t.outbuf = s.outbuf) (halted : t.halted = s.halted) (fault : t.fault = s.fault)
  | output (op : i.decoded.op = .out) (v : Int) (outbuf : t.outbuf = s.outbuf ++ [v]) (status : t.status = .suspended)
  | halted (op : i.decoded.op = .hlt) (eq : t = { s with halted := true, status := .halted })
  | inputStarved (op : i.decoded.op = .inp) (eq : t = { s with status := .awaitingInput })
  | fault (taken : FaultTaken s t)

section ExecResult
variable {i : Instr} {s t : State}

theorem ExecResult.of_storeCommit {a b p : Param} {r : Int} (hout : i.decoded.op ≠ .out) (hhlt : i.decoded.op ≠ .hlt)
    (h : StoreCommit s t a b p r) : ExecResult i s t := by
  obtain ⟨-, -, -, -, rfl⟩ := h
  exact .continued hout hhlt rfl rfl rfl rfl

theorem ExecResult.of_jumpCommit {c d : Param} {taken : Prop} (hout : i.decoded.op ≠ .out) (hhlt : i.decoded.op ≠ .hlt)
    (h : JumpCommit s t c d taken) : ExecResult i s t := by
  obtain ⟨q, rfl⟩ := h.eq_setPc
  exact .continued hout hhlt rfl rfl rfl rfl

theorem exec_result (h : exec i s = .next t) : ExecResult i s t := by
  cases i with
  | add a b p => exact (execAdd_cases h).elim .fault fun ⟨_, hc⟩ => .of_storeCommit nofun nofun hc
  | mul a b p => exact (execMul_cases h).elim .fault fun ⟨_, hc⟩ => .of_storeCommit nofun nofun hc
  | inp p u2 u3 =>
    rcases execIn_cases h with hf | ⟨-, -, ht⟩ | ⟨-, v, rest, -, -, rfl⟩
    · exact .fault hf
    · exact .inputStarved rfl ht
    · exact .continued nofun nofun rfl rfl rfl rfl
  | out a u2 u3 =>
    rcases execOut_cases h with hf | ⟨-, -, rfl⟩
    · exact .fault hf
    · exact .output rfl (s.value a) rfl rfl
  | jt c d u3 => exact (execJt_cases h).elim .fault (.of_jumpCommit nofun nofun)
  | jf c d u3 => exact (execJf_cases h).elim .fault (.of_jumpCommit nofun nofun)
  | lt a b p => exact (execLt_cases h).elim .fault (.of_storeCommit nofun nofun)
  | eq a b p => exact (execEq_cases h).elim .fault (.of_storeCommit nofun nofun)
  | arb a u2 u3 =>
    rcases execArb_cases h with hf | ⟨-, -, -, rfl⟩
    · exact .fault hf
    · exact .continued nofun nofun rfl rfl rfl rfl
  | hlt u1 u2 u3 => exact .halted rfl (execHlt_cases h)

end ExecResult

/-- Settles O29: a step that is not of a stopped machine takes a fault of the fetch or runs the fetched instruction from the
resumed machine, whose `ExecResult` is the result. -/
theorem stepEndsWithOneOfFiveResults : Obligations.StepEndsWithOneOfFiveResults := by
  intro s
  obtain ⟨t, ht⟩ := step_answers s
  refine ⟨t, ht, fun hs => ?_⟩
  have faulted : FaultTaken s t → ∃ r, report t = .fault (some r) ∧ t = { s with status := .faulted, fault := some r } := by
    rintro ⟨c, rfl, -⟩
    exact ⟨_, rfl, rfl⟩
  rcases step_cases ht with ⟨hstop, -⟩ | ⟨-, hf⟩ | ⟨-, i, hi, hexec⟩
  · simp [hs] at hstop
  · exact .inr (.inr (.inr (.inr (faulted hf))))
  · cases exec_result hexec with
    | continued hout hhlt status outbuf halted fault =>
      exact .inl ⟨report_of_running status, outbuf, halted, fault, i, hi, hout, hhlt⟩
    | output op v outbuf status =>
      have emitted : report t = .output (some v) := by
        rw [report_of_suspended status, outbuf, List.getLast?_concat]
      exact .inr (.inl ⟨v, emitted, outbuf, i, hi, op⟩)
    | halted op eq => subst eq; exact .inr (.inr (.inl ⟨rfl, rfl, i, hi, op⟩))
    | inputStarved op eq => subst eq; exact .inr (.inr (.inr (.inl ⟨rfl, rfl, i, hi, op⟩)))
    | fault taken => exact .inr (.inr (.inr (.inr (faulted taken))))

end Sys2Proof.Machine

/-! # The burst (O27, O42, O43)

A burst of a stopped machine answers at once; any other is `burstLoop` of the resumed machine, of which one equation says what
one more step does. -/

namespace Sys2Proof.Machine

/-! ## What a burst does -/

theorem burst_of_stopped {s : State} (h : s.stopped = true) (n : Nat) : burst n s = some (s, report s) := by
  rcases (State.stopped_eq_true_iff s).mp h with hst | hst <;> simp only [burst, report, hst]

theorem burst_of_not_stopped {s : State} (h : s.stopped = false) (n : Nat) : burst n s = burstLoop n s.resume := by
  cases hst : s.status with
  | halted => simp [State.stopped, hst] at h
  | faulted => simp [State.stopped, hst] at h
  | _ => simp only [burst, hst]

/-- One round of R93's loop: one step, and on from where it left the machine while its result is `Continue`. -/
theorem burstLoop_succ {s t : State} (h : step s = .next t) (n : Nat) :
    burstLoop (n + 1) s = if report t = .continued then burstLoop n t else some (t, report t) := by
  simp only [burstLoop, h]

/-! ## At most one output (R94) -/

/-- What R94 says of a burst that began with the machine `s` and left `t` with the result `r`. -/
structure AtMostOneOutput (s t : State) (r : StepResult) : Prop where
  ended : r ≠ .continued
  output : ∀ v, r = .output v → ∃ x, v = some x ∧ t.outbuf = s.outbuf ++ [x] ∧ t.status = .suspended
  silent : (∀ v, r ≠ .output v) → t.outbuf = s.outbuf

section AtMostOneOutput
variable {s s' t : State} {r : StepResult}

theorem AtMostOneOutput.of_outbuf_eq (hcont : r ≠ .continued) (hout : ∀ v, r ≠ .output v) (h : t.outbuf = s.outbuf) :
    AtMostOneOutput s t r :=
  ⟨hcont, fun v hv => absurd hv (hout v), fun _ => h⟩

theorem AtMostOneOutput.of_output {x : Int} (hout : t.outbuf = s.outbuf ++ [x]) (hst : t.status = .suspended) :
    AtMostOneOutput s t (.output (some x)) :=
  ⟨nofun, fun _ hv => ⟨x, (StepResult.output.inj hv).symm, hout, hst⟩, fun hno => absurd rfl (hno (some x))⟩

/-- Only the output buffer of the machine that began matters. -/
theorem AtMostOneOutput.congr_outbuf (h : AtMostOneOutput s t r) (heq : s.outbuf = s'.outbuf) : AtMostOneOutput s' t r :=
  ⟨h.ended, heq ▸ h.output, heq ▸ h.silent⟩

theorem atMostOneOutput_of_stopped (h : s.stopped = true) : AtMostOneOutput s s (report s) := by
  rcases report_of_stopped h with hr | hr
  · exact hr ▸ .of_outbuf_eq nofun nofun rfl
  · exact hr ▸ .of_outbuf_eq nofun nofun rfl

/-- A step goes on with the output buffer as it was, or ends the burst with at most one output (R92, R94). -/
theorem step_outbuf_or_ends (h : step s = .next t) :
    (report t = .continued ∧ t.outbuf = s.outbuf) ∨ AtMostOneOutput s t (report t) := by
  cases hs : s.stopped with
  | true =>
    obtain rfl : s = t := Host.Outcome.next.inj ((step_of_stopped hs).symm.trans h)
    exact .inr (atMostOneOutput_of_stopped hs)
  | false =>
    obtain ⟨t', ht', hres⟩ := stepEndsWithOneOfFiveResults s
    obtain rfl : t' = t := Host.Outcome.next.inj (ht'.symm.trans h)
    rcases hres hs with ⟨hr, hout, -⟩ | ⟨v, hr, hout, -⟩ | ⟨hr, ht, -⟩ | ⟨hr, ht, -⟩ | ⟨record, hr, ht⟩
    · exact .inl ⟨hr, hout⟩
    · exact .inr (hr ▸ .of_output hout (status_of_report_output hr))
    · exact .inr (hr ▸ .of_outbuf_eq nofun nofun (by rw [ht]))
    · exact .inr (hr ▸ .of_outbuf_eq nofun nofun (by rw [ht]))
    · exact .inr (hr ▸ .of_outbuf_eq nofun nofun (by rw [ht]))

/-- Every step but the last of a burst leaves the output buffer as it was, however long the burst is. -/
theorem burstLoop_atMostOneOutput {n : Nat} (h : burstLoop n s = some (t, r)) : AtMostOneOutput s t r := by
  induction n generalizing s with
  | zero => cases h
  | succ n ih =>
    obtain ⟨u, hu⟩ := step_answers s
    rw [burstLoop_succ hu] at h
    rcases step_outbuf_or_ends hu with ⟨hr, hout⟩ | hend
    · rw [if_pos hr] at h
      exact (ih h).congr_outbuf hout
    · rw [if_neg hend.ended] at h
      cases h
      exact hend

theorem burst_atMostOneOutput {n : Nat} (h : burst n s = some (t, r)) : AtMostOneOutput s t r := by
  cases hs : s.stopped with
  | true =>
    rw [burst_of_stopped hs] at h
    cases h
    exact atMostOneOutput_of_stopped hs
  | false =>
    rw [burst_of_not_stopped hs] at h
    exact (burstLoop_atMostOneOutput h).congr_outbuf rfl

end AtMostOneOutput

/-- Settles O42: by `AtMostOneOutput`, which the last step of a burst makes true and the steps before it leave true. -/
theorem burstReturnsAtMostOneOutput : Obligations.BurstReturnsAtMostOneOutput := by
  rintro s t r ⟨n, hn⟩
  obtain ⟨ended, output, silent⟩ := burst_atMostOneOutput hn
  exact ⟨ended, output, silent⟩

/-! ## A burst that never ends (R99) -/

/-- A machine whose step answers `Continue` and the same machine again has a burst without end. -/
theorem burstHangs_of_step_self {s : State} (hs : s.stopped = false) (h : step s.resume = .next s.resume) :
    BurstHangs s := by
  intro n
  rw [burst_of_not_stopped hs]
  induction n with
  | zero => rfl
  | succ n ih => rw [burstLoop_succ h, if_pos (report_of_running rfl), ih]

/-- Settles O43: the taken jump loads `pc` with the address it stands at, so that its step is of the resumed machine to
itself. -/
theorem selfJumpHangs : Obligations.SelfJumpHangs := by
  intro s c d u3 hs hc hd hself
  have jumpHangs : ∀ i, fetchInstr s = .ok i → exec i s.resume = .next { s.resume with pc := s.value d } →
      BurstHangs s := by
    intro i hi hexec
    refine burstHangs_of_step_self hs ?_
    calc step s.resume
      _ = step s := step_resume hs
      _ = exec i s.resume := step_of_fetch hs hi
      _ = .next { s.resume with pc := s.value d } := hexec
      _ = .next s.resume := by rw [hself]; rfl
  exact ⟨fun hi hx => jumpHangs _ hi ((jtJumpsWhenNotZero s.resume c d u3 hc hd).1 hx),
    fun hi hx => jumpHangs _ hi ((jfJumpsWhenZero s.resume c d u3 hc hd).1 hx)⟩

/-! ## A halted machine (R95) -/

/-- A feed neither stops a machine nor wakes it (R88). -/
theorem afterFeed_stopped (s : State) (vs : List Int) : (afterFeed s vs).stopped = s.stopped := by
  simp only [State.stopped, afterFeed_status]

/-- Settles O27: a halted machine is stopped, and a feed leaves it so. -/
theorem haltedMachineStaysHalted : Obligations.HaltedMachineStaysHalted := by
  intro s hhalt
  have stopped : s.stopped = true := (State.stopped_eq_true_iff s).mpr (.inl hhalt)
  refine ⟨step_of_stopped stopped, fun n => ?burst, fun vs => ⟨?fed, ?status⟩⟩
  case burst => rw [burst_of_stopped stopped, report, hhalt]
  case fed => exact step_of_stopped ((afterFeed_stopped s vs).trans stopped)
  case status => exact (afterFeed_status s vs).trans hhalt

end Sys2Proof.Machine

/-! # Fetching an instruction (O23, O28)

The faults of the fetch are read off `fetchInstr` one check at a time; past them it makes the instruction of the cells from
`pc` up. -/

namespace Sys2Proof.Machine

section Fetch
variable {s : State} {d : Decoded} {n k : Nat}

theorem State.currentWord_of_neg (h : s.pc < 0) : s.currentWord = none := if_pos h

theorem State.currentWord_of_nonneg (h : 0 ≤ s.pc) : s.currentWord = some (s.cell s.pc) := if_neg (not_lt.mpr h)

/-! ## The checks in order (R90, R109) -/

theorem fetchInstr_of_neg (h : s.pc < 0) : fetchInstr s = .error (.invalidAddress s.pc) :=
  bind_eq_error.mpr (.inl (memRead_eq_error.mpr ⟨h, rfl⟩))

theorem fetchInstr_of_decode_error (h : 0 ≤ s.pc) {e : DecodeFault} (he : decodeWord (s.cell s.pc) = .error e) :
    fetchInstr s = .error (decodeCause e) := by
  simp only [fetchInstr, fetchWord_eq_ok.mpr ⟨h, rfl⟩, ok_bind, he]

/-- Past the decoder, a fetch reads the parameter words in order (R58, R91). -/
theorem fetchInstr_of_decode_ok (h : 0 ≤ s.pc) (hd : decodeWord (s.cell s.pc) = .ok d) :
    fetchInstr s = (do
      let r1 ← fetchParam s d.nparams 1
      let r2 ← fetchParam s d.nparams 2
      let r3 ← fetchParam s d.nparams 3
      .ok (d.toInstr r1 r2 r3)) := by
  simp only [fetchInstr, fetchWord_eq_ok.mpr ⟨h, rfl⟩, ok_bind, hd]

/-- A parameter word the instruction takes is a cell; in place of any other stands 0. -/
theorem fetchParam_of_inRange (h : 0 ≤ s.pc) (hk : k ≤ n → InRange s.intModel (s.pc + k)) :
    fetchParam s n k = .ok (if k ≤ n then s.cell (s.pc + k) else 0) := by
  refine fetchParam_eq_ok.mpr ?_
  split
  · next hle => exact .inl ⟨hle, hk hle, by omega, rfl⟩
  · next hgt => exact .inr ⟨not_le.mp hgt, rfl⟩

theorem fetchParam_of_not_inRange (hk : k ≤ n) (hr : ¬InRange s.intModel (s.pc + k)) :
    fetchParam s n k = .error (.overflow (s.pc + k)) := by
  rw [fetchParam, if_pos hk, checked_of_not_inRange hr, error_bind]

/-- The first parameter word whose address is out of range is the fault (R109, point 5). -/
theorem fetchInstr_of_not_inRange (h : 0 ≤ s.pc) (hd : decodeWord (s.cell s.pc) = .ok d) (h1 : 1 ≤ k) (hk : k ≤ d.nparams)
    (hbefore : ∀ j : Nat, 1 ≤ j → j < k → InRange s.intModel (s.pc + j)) (hr : ¬InRange s.intModel (s.pc + k)) :
    fetchInstr s = .error (.overflow (s.pc + k)) := by
  have read : ∀ j, 1 ≤ j → j < k → ∃ r, fetchParam s d.nparams j = .ok r := fun j hj hlt =>
    ⟨_, fetchParam_of_inRange h fun _ => hbefore j hj hlt⟩
  have fault := fetchParam_of_not_inRange hk hr
  have h3 : k ≤ 3 := hk.trans d.nparams_le
  rw [fetchInstr_of_decode_ok h hd]
  interval_cases k
  · rw [fault, error_bind]
  · obtain ⟨r1, hr1⟩ := read 1 le_rfl (by decide)
    rw [hr1, ok_bind, fault, error_bind]
  · obtain ⟨r1, hr1⟩ := read 1 le_rfl (by decide)
    obtain ⟨r2, hr2⟩ := read 2 (by decide) (by decide)
    rw [hr1, ok_bind, hr2, ok_bind, fault, error_bind]

end Fetch

/-- Settles O23: each clause is one fault of `fetchInstr`, which the step takes with the current word. -/
theorem fetchFaultOrder : Obligations.FetchFaultOrder := by
  intro s hs
  have faults : ∀ {c}, fetchInstr s = .error c → ∀ {w}, s.currentWord = w →
      step s = .next { s with status := .faulted, fault := some { cause := c, pc := s.pc, word := w } } := by
    rintro c hc _ rfl
    exact step_of_fetch_error hs hc
  refine ⟨fun hneg => ?pc, fun h0 e he => ?word, fun h0 d k hd h1 hk hbefore hr => ?param⟩
  case pc => exact faults (fetchInstr_of_neg hneg) (State.currentWord_of_neg hneg)
  case word => exact faults (fetchInstr_of_decode_error h0 he) (State.currentWord_of_nonneg h0)
  case param =>
    exact faults (fetchInstr_of_not_inRange h0 hd h1 hk hbefore hr) (State.currentWord_of_nonneg h0)

/-! ## The instruction at `pc` (R50, R58) -/

/-- A parameter word the opcode does not take is not looked at. -/
theorem toInstr_taken (d : Decoded) (r1 r2 r3 : Int) :
    d.toInstr (if 1 ≤ d.nparams then r1 else 0) (if 2 ≤ d.nparams then r2 else 0) (if 3 ≤ d.nparams then r3 else 0) =
      d.toInstr r1 r2 r3 := by
  obtain ⟨op, m1, m2, m3⟩ := d
  cases op <;> rfl

theorem fetchInstr_of_inRange {s : State} {d : Decoded} (h : 0 ≤ s.pc) (hd : decodeWord (s.cell s.pc) = .ok d)
    (hr : ∀ k : Nat, 1 ≤ k → k ≤ d.nparams → InRange s.intModel (s.pc + k)) :
    fetchInstr s = .ok (d.toInstr (s.cell (s.pc + 1)) (s.cell (s.pc + 2)) (s.cell (s.pc + 3))) := by
  rw [fetchInstr_of_decode_ok h hd, fetchParam_of_inRange h (hr 1 (by decide)), ok_bind,
    fetchParam_of_inRange h (hr 2 (by decide)), ok_bind, fetchParam_of_inRange h (hr 3 (by decide)), ok_bind]
  exact congrArg Except.ok (toInstr_taken d _ _ _)

/-- The four cells an instruction at `pc` can take (R50, R67). -/
theorem cellsFrom_pc {s : State} (h : 0 ≤ s.pc) :
    cellsFrom s.mem s.pc.toNat 4 = [s.cell s.pc, s.cell (s.pc + 1), s.cell (s.pc + 2), s.cell (s.pc + 3)] := by
  have next : ∀ k : Nat, s.cell (s.pc + k) = Memory.read s.mem (s.pc.toNat + k) := fun k => by
    rw [State.cell, Int.toNat_add h (Int.natCast_nonneg k), Int.toNat_natCast]
  calc cellsFrom s.mem s.pc.toNat 4
    _ = [s.cell s.pc, Memory.read s.mem (s.pc.toNat + 1), Memory.read s.mem (s.pc.toNat + 2),
          Memory.read s.mem (s.pc.toNat + 3)] := rfl
    _ = [s.cell s.pc, s.cell (s.pc + 1), s.cell (s.pc + 2), s.cell (s.pc + 3)] := by
      rw [← next 1, ← next 2, ← next 3]; rfl

/-- Settles O28: the decoder reads from the four cells what the fetch reads cell by cell. -/
theorem stepRunsDecodedInstruction : Obligations.StepRunsDecodedInstruction := by
  intro s i rest hs h0 hdec hr
  rw [cellsFrom_pc h0] at hdec
  obtain ⟨d, hd, -, rfl, -⟩ := decode_cons_eq_ok_iff.mp hdec
  have width : (d.toInstr (s.cell (s.pc + 1)) (s.cell (s.pc + 2)) (s.cell (s.pc + 3))).width = d.nparams + 1 := by
    rw [Instr.width, Decoded.decoded_toInstr]; rfl
  have fetched := fetchInstr_of_inRange h0 hd fun k h1 hk => hr k h1 (width ▸ Nat.lt_succ_of_le hk)
  exact ⟨fetched, step_of_fetch hs fetched⟩

end Sys2Proof.Machine

/-! # The host's operations (O38, O40, O41)

`load` and `feed` make the same check of a list of values, whose two verdicts are `find?_not_fits_cases`. -/

namespace Sys2Proof.Machine

/-! ## load and feed (R87, R88) -/

/-- Either some value of a list is out of range, and the check finds one, or all are in range and it finds none. -/
theorem find?_not_fits_cases (model : IntModel) (vs : List Int) :
    (∃ v ∈ vs, ¬InRange model v ∧ vs.find? (fun v => !fits model v) = some v) ∨
    ((∀ v ∈ vs, InRange model v) ∧ vs.find? (fun v => !fits model v) = none) := by
  cases h : vs.find? (fun v => !fits model v) with
  | some v => exact .inl ⟨v, List.mem_of_find?_eq_some h, fits_eq_false_iff.mp (by simpa using List.find?_some h), rfl⟩
  | none => exact .inr ⟨fun v hv => fits_eq_true_iff.mp (by simpa using List.find?_eq_none.mp h v hv), rfl⟩

/-- Everything a load can do: it is turned away, or every element fits and is placed from 0 up. -/
theorem load_cases (model : IntModel) (program : List Int) :
    (∃ v ∈ program, ¬InRange model v ∧ load model program = .error (.loadOutOfRange v)) ∨
    ((∀ v ∈ program, InRange model v) ∧
      load model program = .ok { State.resetUnder model with mem := Memory.writeList [] 0 program }) := by
  rcases find?_not_fits_cases model program with ⟨v, hv, hr, hfind⟩ | ⟨hr, hfind⟩
  · exact .inl ⟨v, hv, hr, by simp only [load, hfind]⟩
  · exact .inr ⟨hr, by simp only [load, hfind]⟩

/-- Everything a feed can do: it is turned away, or every value fits and is appended. -/
theorem feed_cases (s : State) (vs : List Int) :
    (∃ v ∈ vs, ¬InRange s.intModel v ∧ feed s vs = .error (.feedOutOfRange v)) ∨
    ((∀ v ∈ vs, InRange s.intModel v) ∧ feed s vs = .ok { s with inq := s.inq ++ vs }) := by
  rcases find?_not_fits_cases s.intModel vs with ⟨v, hv, hr, hfind⟩ | ⟨hr, hfind⟩
  · exact .inl ⟨v, hv, hr, by simp only [feed, hfind]⟩
  · exact .inr ⟨hr, by simp only [feed, hfind]⟩

theorem afterFeed_of_feed_error {s : State} {vs : List Int} {e : Refusal} (h : feed s vs = .error e) :
    afterFeed s vs = s := by
  simp only [afterFeed, h]

/-- Settles O40: the clauses are the cases of `feed_cases` and of `load_cases`, and a feed does not wake a stopped machine. -/
theorem feedAppendsOrRefuses : Obligations.FeedAppendsOrRefuses := by
  refine ⟨fun s vs => ⟨fun hfit => ?appends, fun ⟨v, hv, hr⟩ => ?refuses, fun hs => ?stopped⟩,
    fun model program ⟨v, hv, hr⟩ => ?load⟩
  case appends =>
    rcases feed_cases s vs with ⟨v, hv, hr, -⟩ | ⟨-, hfeed⟩
    · exact absurd (hfit v hv) hr
    · exact ⟨hfeed, afterFeed_of_inRange hfit⟩
  case refuses =>
    rcases feed_cases s vs with ⟨w, hw, hout, hfeed⟩ | ⟨hfit, -⟩
    · exact ⟨w, hw, hout, hfeed, afterFeed_of_feed_error hfeed⟩
    · exact absurd (hfit v hv) hr
  case stopped => exact step_of_stopped ((afterFeed_stopped s vs).trans hs)
  case load => exact (load_cases model program).resolve_right fun ⟨hfit, _⟩ => hr (hfit v hv)

/-! ## The invariant (R5, R23, R28) -/

/-- A list of values in range, written at addresses in range, keeps every listed cell in range. -/
theorem Memory.allFit_writeList {model : IntModel} {vs : List Int} {m : Memory} {a : Nat} (hm : allFit model m = true)
    (hvs : ∀ v ∈ vs, InRange model v) (ha : ∀ i < vs.length, InRange model ((a + i : Nat) : Int)) :
    allFit model (writeList m a vs) = true := by
  induction vs generalizing m a with
  | nil => exact hm
  | cons v vs ih =>
    obtain ⟨hv, hvs⟩ := List.forall_mem_cons.mp hvs
    have here : InRange model (a : Int) := ha 0 (by simp)
    refine ih (allFit_write (fits_eq_true_iff.mpr here) (fits_eq_true_iff.mpr hv) hm) hvs fun i hi => ?_
    rw [Nat.add_assoc, Nat.add_comm 1 i]
    exact ha (i + 1) (Nat.succ_lt_succ hi)

/-- The addresses of a program of at most 2^63 elements are in range; under `Unbounded` every address is. -/
theorem inRange_address {model : IntModel} {n i : Nat} (hn : model = .i64Checked → (n : Int) ≤ 9223372036854775808)
    (hi : i < n) : InRange model (i : Int) := by
  cases model with
  | unbounded => exact .inl rfl
  | i64Checked =>
    have := hn rfl
    exact .inr ⟨by omega, by omega⟩

theorem load_inv {model : IntModel} {program : List Int} {s : State}
    (hlen : model = .i64Checked → (program.length : Int) ≤ 9223372036854775808) (h : load model program = .ok s) :
    s.Inv := by
  rcases load_cases model program with ⟨v, -, -, hload⟩ | ⟨hfit, hload⟩
  · rw [hload] at h; cases h
  · rw [hload] at h
    cases h
    refine State.Live.inv_of_running ?_ rfl
    exact {
      canonical := Memory.wf_writeList program 0 rfl
      notHalted := rfl
      noRecord := rfl
      memFits := Memory.allFit_writeList rfl hfit fun i hi => by
        rw [Nat.zero_add]; exact inRange_address hlen hi
      pcInRange := inRange_zero model
      rbInRange := inRange_zero model
      inqInRange := nofun
      outbufInRange := nofun }

/-- Only the range of its integers depends on a machine's queue. -/
theorem State.Inv.setInq {s : State} (h : s.Inv) {vs : List Int} (hvs : ∀ v ∈ vs, InRange s.intModel v) :
    State.Inv { s with inq := vs } := by
  obtain ⟨hmem, hpc, hrb, -, hout⟩ := State.allFit_eq_true_iff.mp h.inRange
  exact { h with inRange := State.allFit_eq_true_iff.mpr ⟨hmem, hpc, hrb, hvs, hout⟩ }

theorem afterFeed_inv {s : State} (h : s.Inv) (vs : List Int) : (afterFeed s vs).Inv := by
  rcases afterFeed_cases s vs with ⟨-, hfed⟩ | ⟨hfit, hfed⟩
  · rwa [hfed]
  · rw [hfed]
    obtain ⟨-, -, -, hinq, -⟩ := State.allFit_eq_true_iff.mp h.inRange
    exact h.setInq (List.forall_mem_append.mpr ⟨hinq, hfit⟩)

/-- Settles O38: by `load_inv` and `afterFeed_inv`. -/
theorem hostOperationsKeepMachineInvariant : Obligations.HostOperationsKeepMachineInvariant :=
  ⟨fun _ _ _ hlen h => load_inv hlen h, fun _ vs h => afterFeed_inv h vs⟩

/-! ## peek (R97) -/

/-- Settles O41: a cell is read by `memRead`, with its two answers; every other selector names a field. -/
theorem peekReturnsEachElement : Obligations.PeekReturnsEachElement := by
  intro s a
  refine ⟨fun h0 => ?cell, fun hneg => ?negative, rfl, rfl, rfl, rfl, rfl, rfl⟩
  case cell => exact congrArg (Except.map Observation.word) (memRead_of_nonneg s.mem h0)
  case negative => exact congrArg (Except.map Observation.word) (memRead_eq_error.mpr ⟨hneg, rfl⟩)

end Sys2Proof.Machine

/-! # Faults and starvation (O24, O25, O26)

A step that ends faulted or starved changed nothing else of the machine: `exec_result` names the constructor by the status it
leaves. A starved machine differs from the one before the step in `status` alone, so that its next step is the same step. -/

namespace Sys2Proof.Machine

section StepEnds
variable {s t : State}

/-- A step that leaves a machine faulted took its fault in the state before it (R108, R111). -/
theorem step_takes_fault (hs : s.stopped = false) (h : step s = .next t) (ht : t.status = .faulted) :
    ∃ c, t = s.takeFault c := by
  rcases step_cases h with ⟨hstop, -⟩ | ⟨-, hf⟩ | ⟨-, i, -, hexec⟩
  · simp [hs] at hstop
  · exact hf.eq_takeFault
  · cases exec_result hexec with
    | continued _ _ status => simp [status] at ht
    | output _ _ _ status => simp [status] at ht
    | halted _ eq => simp [eq] at ht
    | inputStarved _ eq => simp [eq] at ht
    | fault taken => exact taken.eq_takeFault

/-- Only IN with an empty queue starves a running machine (R77, R112). -/
theorem exec_starves {i : Instr} (hrun : s.status = .running) (h : exec i s = .next t) (ht : t.status = .awaitingInput) :
    s.inq = [] ∧ t = { s with status := .awaitingInput } := by
  cases exec_result h with
  | continued _ _ status => simp [status, hrun] at ht
  | output _ _ _ status => simp [status] at ht
  | halted _ eq => simp [eq] at ht
  | fault taken => obtain ⟨c, rfl⟩ := taken.eq_takeFault; simp at ht
  | inputStarved op eq =>
    cases i with
    | inp p u2 u3 =>
      rcases execIn_cases h with hf | ⟨-, hq, ht'⟩ | ⟨-, v, rest, -, -, rfl⟩
      · obtain ⟨c, rfl⟩ := hf.eq_takeFault; simp at ht
      · exact ⟨hq, ht'⟩
      · simp [hrun] at ht
    | _ => simp [Instr.decoded] at op

/-- A step that leaves a machine starved fetched its instruction and changed `status` alone (R112). -/
theorem step_starves (h : step s = .next t) (ht : t.status = .awaitingInput) :
    s.inq = [] ∧ t = { s with status := .awaitingInput } ∧
      ∃ i, fetchInstr s = .ok i ∧ exec i s.resume = .next t := by
  rcases step_cases h with ⟨hstop, rfl⟩ | ⟨-, hf⟩ | ⟨-, i, hi, hexec⟩
  · simp [State.stopped, ht] at hstop
  · obtain ⟨c, rfl⟩ := hf.eq_takeFault; simp at ht
  · obtain ⟨hq, rfl⟩ := exec_starves (State.resume_status s) hexec ht
    exact ⟨hq, rfl, i, hi, hexec⟩

/-- A starved machine starves again (R112). -/
theorem step_of_starved (h : step s = .next t) (ht : t.status = .awaitingInput) : step t = .next t := by
  obtain ⟨-, rfl, i, hi, hexec⟩ := step_starves h ht
  exact (step_of_fetch (s := { s with status := .awaitingInput }) rfl hi).trans hexec

/-- A feed changes nothing the fetch reads (R88, R90). -/
theorem fetchInstr_afterFeed (s : State) (vs : List Int) : fetchInstr (afterFeed s vs) = fetchInstr s := by
  rcases afterFeed_cases s vs with ⟨-, h⟩ | ⟨-, h⟩
  · rw [h]
  · rw [h]; rfl

end StepEnds

/-- Settles O25: the fault is taken in the state before the step (`step_takes_fault`); the machine is then stopped, and a
feed leaves it so. -/
theorem fatalFaultIsPreciseAndAbsorbing : Obligations.FatalFaultIsPreciseAndAbsorbing := by
  intro s t hs h ht
  have stopped : t.stopped = true := (State.stopped_eq_true_iff t).mpr (.inr ht)
  refine ⟨?precise, step_of_stopped stopped, fun n => ?burst, fun vs => ⟨?status, afterFeed_fault t vs, ?fed⟩⟩
  case precise =>
    obtain ⟨c, rfl⟩ := step_takes_fault hs h ht
    exact ⟨c, rfl⟩
  case burst => rw [burst_of_stopped stopped, report, ht]
  case status => exact (afterFeed_status t vs).trans ht
  case fed => exact step_of_stopped ((afterFeed_stopped t vs).trans stopped)

/-- Settles O26: by `step_starves`; the starved machine and the fed one fetch the instruction that was fetched before. -/
theorem starvationIsPreciseAndResumable : Obligations.StarvationIsPreciseAndResumable := by
  intro s t _ h ht
  have again : step t = .next t := step_of_starved h ht
  have live : t.stopped = false := by simp [State.stopped, ht]
  have starved : report t = .inputStarved := by rw [report, ht]
  obtain ⟨hq, heq, i, hi, -⟩ := step_starves h ht
  refine ⟨heq, hq, again, fun n => ?burst, i, hi, fun vs => ?fed⟩
  case burst =>
    rw [burst_of_not_stopped live, burstLoop_succ ((step_resume live).trans again), starved]
    exact if_neg nofun
  case fed =>
    have fetched : fetchInstr t = .ok i := by rw [heq]; exact hi
    exact step_of_fetch ((afterFeed_stopped t vs).trans live) ((fetchInstr_afterFeed t vs).trans fetched)

/-! ## The labels of the faults (R101) -/

/-- Settles O24: each row and each label is read off the functions that give them. -/
theorem faultCodesAndNames : Obligations.FaultCodesAndNames := by
  intro v k o n pc w
  refine ⟨fun row hrow => ?_, rfl, rfl, rfl, rfl⟩
  simp only [List.mem_cons, List.not_mem_nil, or_false] at hrow
  rcases hrow with rfl | rfl | rfl | rfl | rfl <;> exact ⟨rfl, rfl, rfl⟩

end Sys2Proof.Machine

/-! # The faults of ADD, MUL, LT and EQ (O19)

The four are the shape `RRW` with an operation of their own, which is looked at only after the three parameters resolve, so
that each fault is proved once for any operation. -/

namespace Sys2Proof.Machine

section StoreFaults
variable {s : State} {a b t : Param} {c : FaultCause} (f : Int → Int → Except FaultCause Int)

theorem storeBinary_of_firstFault (h : s.AddressFault a c) : storeBinary s a b t f = .error c :=
  bind_eq_error.mpr (.inl (readParam_eq_error.mpr h))

theorem storeBinary_of_secondFault (ha : s.Readable a) (h : s.AddressFault b c) : storeBinary s a b t f = .error c := by
  rw [storeBinary, readParam_eq_ok.mpr ⟨ha, rfl⟩, ok_bind, readParam_eq_error.mpr h, error_bind]

theorem storeBinary_of_targetFault (ha : s.Readable a) (hb : s.Readable b) (h : s.AddressFault t c) :
    storeBinary s a b t f = .error c := by
  rw [storeBinary, readParam_eq_ok.mpr ⟨ha, rfl⟩, ok_bind, readParam_eq_ok.mpr ⟨hb, rfl⟩, ok_bind,
    (writeAddr_eq_error h.mode_ne_immediate).mpr h, error_bind]

/-- With a result in hand the advance is the last check (R109, point 11). -/
theorem storeBinary_of_advance_not_inRange (ha : s.Readable a) (hb : s.Readable b) (ht : s.Writable t) {r : Int}
    (hr : f (s.value a) (s.value b) = .ok r) (hpc : ¬InRange s.intModel (s.pc + 4)) :
    storeBinary s a b t f = .error (.overflow (s.pc + 4)) := by
  have overflow : advance s Format.RRW.width = .error (.overflow (s.pc + 4)) := advance_eq_error.mpr ⟨hpc, rfl⟩
  rw [storeBinary_of_resolved ha hb ht, hr, ok_bind, overflow, error_bind]

/-- Each of the four concludes `storeBinary` with an operation that gives a result where its sum or product is in range; a
comparison always gives one (R74, R81, R82). -/
theorem exec_eq_conclude_storeBinary {i : Instr} (hi : i ∈ [Instr.add a b t, .mul a b t, .lt a b t, .eq a b t]) :
    ∃ f, exec i s = conclude s (storeBinary s a b t f) ∧
      ((i = .add a b t → InRange s.intModel (s.value a + s.value b)) →
        (i = .mul a b t → InRange s.intModel (s.value a * s.value b)) → ∃ r, f (s.value a) (s.value b) = .ok r) := by
  simp only [List.mem_cons, List.not_mem_nil, or_false] at hi
  rcases hi with rfl | rfl | rfl | rfl
  · exact ⟨_, rfl, fun hadd _ => ⟨_, checked_of_inRange (hadd rfl)⟩⟩
  · exact ⟨_, rfl, fun _ hmul => ⟨_, checked_of_inRange (hmul rfl)⟩⟩
  · exact ⟨_, rfl, fun _ _ => ⟨_, rfl⟩⟩
  · exact ⟨_, rfl, fun _ _ => ⟨_, rfl⟩⟩

end StoreFaults

/-- Settles O19: the clauses are the faults of `storeBinary` in the order of its checks. -/
theorem storeInstrFaultOrder : Obligations.StoreInstrFaultOrder := by
  intro s a b t c i hi
  obtain ⟨f, hexec, result⟩ := exec_eq_conclude_storeBinary (s := s) hi
  have faults : ∀ {e}, storeBinary s a b t f = .error e → exec i s = .next (s.takeFault e) := fun he => by
    rw [hexec, he, conclude_error]
  refine ⟨fun h => faults (storeBinary_of_firstFault f h), fun ha h => faults (storeBinary_of_secondFault f ha h),
    fun ha hb h => faults (storeBinary_of_targetFault f ha hb h), fun ha hb ht hpc hadd hmul => ?_⟩
  obtain ⟨r, hr⟩ := result hadd hmul
  exact faults (storeBinary_of_advance_not_inRange f ha hb ht hr hpc)

end Sys2Proof.Machine

/-! # Reset and load (O37, O39)

Reset is the load of the empty program, so that it meets the invariant as every load does. -/

namespace Sys2Proof.Machine

theorem load_nil (model : IntModel) : load model [] = .ok (State.resetUnder model) := rfl

/-- Settles O37: by `load_inv` at the empty program. -/
theorem resetMeetsMachineInvariant : Obligations.ResetMeetsMachineInvariant := by
  have reset : ∀ model, (State.resetUnder model).Inv := fun model => load_inv (fun _ => by simp) (load_nil model)
  exact ⟨reset _, reset⟩

/-- A program written to an empty memory from 0 up reads back, and every other cell is 0 (R20, R37). -/
theorem read_writeList_nil (program : List Int) (i : Nat) :
    Memory.read (Memory.writeList [] 0 program) i = program.getD i 0 := by
  rw [Memory.read_writeList program 0 i rfl]
  split
  · rfl
  · next h => exact (List.getD_eq_default _ _ (by omega)).symm

/-- Settles O39: by `load_cases`, with the cells of `read_writeList_nil`; the first step from reset fetches the word 0. -/
theorem loadMakesResetState : Obligations.LoadMakesResetState := by
  refine ⟨fun model program hfit => ?load, load_nil .unbounded, ?first⟩
  case load =>
    rcases load_cases model program with ⟨v, hv, hr, -⟩ | ⟨-, hload⟩
    · exact absurd (hfit v hv) hr
    · exact ⟨_, hload, read_writeList_nil program, rfl, rfl, rfl, rfl, rfl, rfl, rfl, rfl⟩
  case first =>
    obtain ⟨-, decodeFault, -⟩ := fetchFaultOrder State.reset rfl
    exact decodeFault (le_refl 0) (.illegalOpcode 0) rfl

end Sys2Proof.Machine

/-! # The number of steps a burst is watched for (O44)

A loop that has ended keeps its outcome however much longer it is watched, from which the rest follows. -/

namespace Sys2Proof.Machine

theorem burstLoop_add {n : Nat} {s : State} {x : State × StepResult} (h : burstLoop n s = some x) (k : Nat) :
    burstLoop (n + k) s = some x := by
  induction n generalizing s with
  | zero => cases h
  | succ n ih =>
    obtain ⟨t, ht⟩ := step_answers s
    rw [burstLoop_succ ht] at h
    rw [Nat.add_right_comm, burstLoop_succ ht]
    split at h
    · next hcont => rw [if_pos hcont]; exact ih h
    · next hend => rw [if_neg hend]; exact h

theorem burst_add {n : Nat} {s : State} {x : State × StepResult} (h : burst n s = some x) (k : Nat) :
    burst (n + k) s = some x := by
  cases hs : s.stopped with
  | true => rwa [burst_of_stopped hs] at h ⊢
  | false =>
    rw [burst_of_not_stopped hs] at h ⊢
    exact burstLoop_add h k

/-- Settles O44: two ends are compared at the sum of their numbers of steps, by `burst_add`. -/
theorem burstOutcomeIsUnique : Obligations.BurstOutcomeIsUnique := by
  refine fun s => ⟨fun n k t r h => burst_add h k, fun t t' r r' ⟨n, hn⟩ ⟨n', hn'⟩ => ?unique,
    fun h => ?hangs, fun h n => ?ends⟩
  case unique =>
    have same : some (t, r) = some (t', r') := by
      rw [← burst_add hn n', Nat.add_comm, burst_add hn' n]
    simpa using same
  case hangs =>
    rintro ⟨t, r, n, hn⟩
    rw [h n] at hn
    cases hn
  case ends =>
    cases hb : burst n s with
    | none => rfl
    | some x => exact absurd ⟨x.1, x.2, n, hb⟩ h

end Sys2Proof.Machine

/-! # The drive loop (O47, O48, O51, O53)

`afterStep` is looked at one result at a time, and the end of a round one case at a time; every claim about a step of the
ring is one of these equations after `step_of_halted`, `step_of_live` or `step_of_end`. -/

namespace Sys2Proof.Machine

theorem report_of_faulted {t : State} (h : t.status = .faulted) : report t = .fault t.fault := by rw [report, h]

/-- A step whose result is `Continue` is of a machine that was not stopped, and halts nothing (R92). -/
theorem halted_of_continued {s t : State} (h : step s = .next t) (ht : report t = .continued) : t.halted = s.halted := by
  cases hs : s.stopped with
  | true =>
    obtain rfl : s = t := Host.Outcome.next.inj ((step_of_stopped hs).symm.trans h)
    rcases report_of_stopped hs with hr | hr <;> simp [hr] at ht
  | false =>
    obtain ⟨t', ht', hres⟩ := stepEndsWithOneOfFiveResults s
    obtain rfl : t' = t := Host.Outcome.next.inj (ht'.symm.trans h)
    rcases hres hs with ⟨-, -, hhalted, -⟩ | ⟨v, hr, -⟩ | ⟨hr, -⟩ | ⟨hr, -⟩ | ⟨record, hr, -⟩
    · exact hhalted
    all_goals simp [hr] at ht

namespace Ring

variable {r : Ring} {m t u : State}

/-! ## The end of a run -/

theorem run_succ (n : Nat) (r : Ring) : Ring.run (n + 1) r = Ring.run n r.step := rfl

/-- A ring that has its verdict stays as it is (R127). -/
theorem run_of_done {v : RingVerdict} (h : r.verdict = some v) (n : Nat) : r.run n = r := by
  induction n with
  | zero => rfl
  | succ n ih => rw [run_succ, step_of_done h, ih]

/-! ## The end of a round (R123, R125 to R127) -/

theorem endRound_of_all_halted (h : ∀ m ∈ r.machines, m.halted = true) :
    r.endRound = { r with verdict := some r.outcome } :=
  if_pos (List.all_eq_true.mpr h)

theorem not_all_halted (h : ∃ m ∈ r.machines, m.halted = false) : ¬r.machines.all isHalted = true := by
  obtain ⟨m, hm, hlive⟩ := h
  intro hall
  have halted : m.halted = true := List.all_eq_true.mp hall m hm
  simp [hlive] at halted

theorem endRound_of_progress (h : ∃ m ∈ r.machines, m.halted = false) (hp : r.progress = true) :
    r.endRound = { r with turn := 0, round := r.round + 1, progress := false } := by
  rw [endRound, if_neg (not_all_halted h), if_pos hp]

theorem endRound_of_no_progress (h : ∃ m ∈ r.machines, m.halted = false) (hp : r.progress = false) :
    r.endRound = { r with verdict := some (.ringFault (.deadlock r.round)) } := by
  rw [endRound, if_neg (not_all_halted h), if_neg (by simp [hp])]

theorem outcome_of_output {v : Int} (hlast : r.machines.getLast? = some m) (hout : m.outbuf.getLast? = some v) :
    r.outcome = .result v := by
  simp only [outcome, hlast, Option.bind_some, hout]

theorem outcome_of_no_output (hlast : r.machines.getLast? = some m) (hout : m.outbuf = []) :
    r.outcome = .ringFault .noOutput := by
  simp only [outcome, hlast, Option.bind_some, hout, List.getLast?_nil]

theorem outcome_ne_deadlock (r : Ring) (k : Nat) : r.outcome ≠ .ringFault (.deadlock k) := by
  unfold outcome
  split <;> nofun

/-! ## A turn (R93, R123) -/

theorem place_place (r : Ring) (u t : State) : (r.place u).place t = r.place t := by
  simp only [place, List.set_set]

/-- Where the machine at turn stood before its last step does not matter. -/
theorem afterStep_place (r : Ring) (u t : State) (res : StepResult) :
    (r.place u).afterStep t res = r.afterStep t res := by
  cases res <;> simp only [afterStep, place_place, place_turn]

/-- The small steps of a turn are the steps of the burst's loop: each but the last puts the machine back and leaves the
turn. -/
theorem run_of_burstLoop {n : Nat} {res : StepResult} (hv : r.verdict = none) (hm : r.machines[r.turn]? = some m)
    (hh : isHalted m = false) (h : burstLoop n m = some (t, res)) : ∃ k, k ≤ n ∧ r.run k = r.afterStep t res := by
  induction n generalizing r m with
  | zero => cases h
  | succ n ih =>
    obtain ⟨u, hu⟩ := step_answers m
    have first : r.step = r.afterStep u (report u) := step_of_live hv hm hh hu
    rw [burstLoop_succ hu] at h
    split at h
    · next hcont =>
      have live : isHalted u = false := (halted_of_continued hu hcont).trans hh
      obtain ⟨k, hk, hrun⟩ := ih (r := r.place u) hv (place_getElem?_turn hm u) live h
      refine ⟨k + 1, Nat.succ_le_succ hk, ?_⟩
      calc r.run (k + 1)
        _ = Ring.run k (r.place u) := by rw [run_succ, first, hcont]; rfl
        _ = (r.place u).afterStep t res := hrun
        _ = r.afterStep t res := afterStep_place r u t res
    · cases h
      exact ⟨1, Nat.succ_le_succ (Nat.zero_le n), first⟩

end Ring

/-- The loop of R93 sets the machine running before its first step, which the step does too. -/
theorem burstLoop_resume {s : State} (h : s.stopped = false) (n : Nat) : burstLoop n s.resume = burstLoop n s := by
  cases n with
  | zero => rfl
  | succ n => simp only [burstLoop, step_resume h]

/-- Settles O47: a stopped machine's burst is its one step; any other's is the loop, by `Ring.run_of_burstLoop`. -/
theorem ringTurnIsOneBurst : Obligations.RingTurnIsOneBurst := by
  intro r m t n res hv hm hh h
  cases hs : m.stopped with
  | true =>
    rw [burst_of_stopped hs] at h
    cases h
    exact ⟨1, Nat.le_add_left 1 n, Ring.step_of_live hv hm hh (step_of_stopped hs)⟩
  | false =>
    rw [burst_of_not_stopped hs, burstLoop_resume hs] at h
    obtain ⟨k, hk, hrun⟩ := Ring.run_of_burstLoop hv hm hh h
    exact ⟨k, Nat.le_succ_of_le hk, hrun⟩

/-- Settles O48: at the end of its machines a ring takes `endRound`, whose three cases are the clauses. -/
theorem ringRoundEnd : Obligations.RingRoundEnd := by
  intro r last hv hturn hlast
  have ends : r.step = r.endRound := Ring.step_of_end hv (List.getElem?_eq_none (Nat.le_of_eq hturn.symm))
  rw [ends]
  refine ⟨fun hall => ?halted, fun hsome => ⟨Ring.endRound_of_no_progress hsome, Ring.endRound_of_progress hsome⟩⟩
  case halted =>
    rw [Ring.endRound_of_all_halted hall]
    exact ⟨fun v hout => by rw [Ring.outcome_of_output hlast hout],
      fun hout => by rw [Ring.outcome_of_no_output hlast hout]⟩

/-- Settles O51: the fault's result gives the ring its verdict, after which it stays as it is. -/
theorem ringFaultAborts : Obligations.RingFaultAborts := by
  intro r m t hv hm hh ht hfault
  have aborted : r.step.verdict = some (.ringFault (.machineFault r.turn t.fault)) := by
    rw [Ring.step_of_live hv hm hh ht, report_of_faulted hfault]
    rfl
  exact ⟨aborted, Ring.run_of_done aborted⟩

/-- Settles O53: a halted machine is passed; of any other the step is `afterStep` at its result. -/
theorem ringStepByResult : Obligations.RingStepByResult := by
  intro r m hv hm
  refine ⟨fun hh => ?passed, fun hh t ht => ?_⟩
  case passed => rw [Ring.step_of_halted hv hm hh, Ring.pass, Bool.or_false]
  have live : ∀ {res}, report t = res → r.step = r.afterStep t res := by
    rintro _ rfl
    exact Ring.step_of_live hv hm hh ht
  refine ⟨live, fun v h => ?output, fun h => ?halted, fun h => ?starved, fun _ => live⟩
  case output =>
    rw [live h, Ring.afterStep, Ring.pass, Bool.or_true]
    rfl
  case halted =>
    rw [live h, Ring.afterStep, Ring.pass, Bool.or_true]
    rfl
  case starved =>
    rw [live h, Ring.afterStep, Ring.pass, Bool.or_false]
    rfl

end Sys2Proof.Machine

/-! # The ring's invariant (O49)

What the invariant says of the machines alone is `MachinesUnder`: each meets its own invariant under one integer model. The
pieces of a ring step keep it, and a ring without a verdict then needs only what R127 says of the turns that have passed. -/

namespace Sys2Proof.Machine

/-- Machines that meet their own invariant, all under one integer model (R5, R122). -/
def MachinesUnder (model : IntModel) (ms : List State) : Prop := ∀ m ∈ ms, m.Inv ∧ m.intModel = model

namespace MachinesUnder

variable {model : IntModel} {ms : List State} {m : State}

theorem set (h : MachinesUnder model ms) (hm : m.Inv) (hmodel : m.intModel = model) (i : Nat) :
    MachinesUnder model (ms.set i m) := by
  intro x hx
  rcases List.mem_or_eq_of_mem_set hx with hx | rfl
  · exact h x hx
  · exact ⟨hm, hmodel⟩

/-- A feed keeps a machine's invariant and its integer model (R88). -/
theorem modify_afterFeed (h : MachinesUnder model ms) (i : Nat) (vs : List Int) :
    MachinesUnder model (ms.modify i (afterFeed · vs)) := by
  intro x hx
  obtain ⟨j, hj⟩ := List.mem_iff_getElem?.mp hx
  rw [List.getElem?_modify] at hj
  obtain ⟨y, hy, hxy⟩ := Option.map_eq_some_iff.mp hj
  obtain ⟨hinv, hmodel⟩ := h y (List.mem_of_getElem? hy)
  subst hxy
  split
  · exact ⟨afterFeed_inv hinv vs, (afterFeed_intModel y vs).trans hmodel⟩
  · exact ⟨hinv, hmodel⟩

end MachinesUnder

theorem status_of_report_inputStarved {t : State} (h : report t = .inputStarved) : t.status = .awaitingInput := by
  cases hst : t.status with
  | awaitingInput => rfl
  | _ => simp [report, hst] at h

/-- A machine that starved has an empty queue and starves again (R112, R127). -/
theorem stuck_of_starved {s t : State} (h : step s = .next t) (ht : report t = .inputStarved) : t.Stuck := by
  have status := status_of_report_inputStarved ht
  obtain ⟨hq, rfl, -⟩ := step_starves h status
  exact .inr ⟨hq, rfl, step_of_starved h status⟩

namespace Ring

variable {r : Ring} {m t : State} {model : IntModel}

/-- A ring that still runs meets the invariant by its machines and the turns that have passed. -/
theorem Inv.of_running (hms : MachinesUnder model r.machines) (hne : r.machines ≠ []) (hturn : r.turn ≤ r.machines.length)
    (hv : r.verdict = none)
    (hpassed : r.progress = false → ∀ j m, j < r.turn → r.machines[j]? = some m → m.Stuck) : r.Inv where
  machinesInv m hm := (hms m hm).1
  oneModel m hm m' hm' := (hms m hm).2.trans (hms m' hm').2.symm
  nonempty := hne
  turnIn := hturn
  passedStuck := hpassed
  deadlockStuck := by simp [hv]
  resultHalted := by simp [hv]

/-- A turn that passes with progress asks nothing of the turns before it. -/
theorem pass_true_inv (hms : MachinesUnder model r.machines) (hlt : r.turn < r.machines.length) (hv : r.verdict = none) :
    (r.pass true).Inv :=
  .of_running hms (List.ne_nil_of_length_pos (Nat.zero_lt_of_lt hlt)) hlt hv (by simp)

namespace Inv

theorem machinesUnder (h : r.Inv) (hm : m ∈ r.machines) : MachinesUnder m.intModel r.machines :=
  fun x hx => ⟨h.machinesInv x hx, h.oneModel x hx m hm⟩

/-! ## The pieces of a step -/

/-- The end of a round: a result is given with all halted, and `Deadlock` with every turn passed and no progress (R127). -/
theorem endRound (h : r.Inv) (hv : r.verdict = none) (hend : r.machines[r.turn]? = none) : r.endRound.Inv := by
  by_cases hall : r.machines.all isHalted = true
  · have halted := List.all_eq_true.mp hall
    rw [endRound_of_all_halted halted]
    exact { h with
      deadlockStuck := fun k hk => absurd (Option.some.inj hk) (r.outcome_ne_deadlock k)
      resultHalted := fun _ _ => halted }
  · have live : ∃ m ∈ r.machines, m.halted = false := by simpa [isHalted] using hall
    cases hp : r.progress with
    | true =>
      rw [endRound_of_progress live hp]
      obtain ⟨m, hm, -⟩ := live
      exact of_running (h.machinesUnder hm) h.nonempty (Nat.zero_le _) hv fun _ j _ hj => absurd hj (Nat.not_lt_zero j)
    | false =>
      rw [endRound_of_no_progress live hp]
      have passed : r.machines.length ≤ r.turn := List.getElem?_eq_none_iff.mp hend
      have stuck : ∀ m ∈ r.machines, m.Stuck := fun m hm => by
        obtain ⟨j, hj⟩ := List.mem_iff_getElem?.mp hm
        obtain ⟨hlt, -⟩ := List.getElem?_eq_some_iff.mp hj
        exact h.passedStuck hp j m (hlt.trans_le passed) hj
      exact { h with deadlockStuck := fun _ _ => stuck, resultHalted := nofun }

/-- A stuck machine's turn may pass without progress. -/
theorem pass_of_stuck (h : r.Inv) (hv : r.verdict = none) (hm : r.machines[r.turn]? = some m) (hs : m.Stuck) :
    (r.pass false).Inv := by
  obtain ⟨hlt, -⟩ := List.getElem?_eq_some_iff.mp hm
  refine of_running (h.machinesUnder (List.mem_of_getElem? hm)) h.nonempty hlt hv fun hp j x hj hx => ?_
  rcases Nat.lt_succ_iff_lt_or_eq.mp hj with hj | rfl
  · exact h.passedStuck (by simpa using hp) j x hj hx
  · obtain rfl : m = x := Option.some.inj (hm.symm.trans hx)
    exact hs

/-- A machine that stepped takes its place, behind the turns that have passed. -/
theorem place (h : r.Inv) (hv : r.verdict = none) (hm : r.machines[r.turn]? = some m)
    (ht : Sys2Proof.Machine.step m = .next t) : (r.place t).Inv := by
  have hmem := List.mem_of_getElem? hm
  refine of_running ((h.machinesUnder hmem).set (step_inv (h.machinesInv m hmem) ht) (step_intModel ht) r.turn) ?_ ?_ hv ?_
  · simpa using h.nonempty
  · simpa using h.turnIn
  · intro hp j x hj hx
    rw [place_getElem?_of_ne (r := r) (Nat.ne_of_lt hj)] at hx
    exact h.passedStuck hp j x hj hx

/-- The `case r of` after a step of the machine at turn: only a starved machine, which is stuck, passes the turn without
progress. -/
theorem afterStep (h : r.Inv) (hv : r.verdict = none) (hm : r.machines[r.turn]? = some m)
    (ht : Sys2Proof.Machine.step m = .next t) : (r.afterStep t (report t)).Inv := by
  have placed : (r.place t).Inv := h.place hv hm ht
  have here : (r.place t).machines[r.turn]? = some t := place_getElem?_turn hm t
  have under := placed.machinesUnder (List.mem_of_getElem? here)
  obtain ⟨hlt, -⟩ := List.getElem?_eq_some_iff.mp here
  cases hres : report t with
  | continued => exact placed
  | output v => exact pass_true_inv (under.modify_afterFeed _ v.toList) ((List.length_modify _ _ _).symm ▸ hlt) hv
  | halted => exact pass_true_inv under hlt hv
  | inputStarved => exact placed.pass_of_stuck hv here (stuck_of_starved ht hres)
  | fault record => exact { placed with deadlockStuck := nofun, resultHalted := nofun }

end Inv

end Ring

/-- Settles O49: each branch of the drive loop keeps the invariant; the machine at turn answers its step
(`step_answers`). -/
theorem ringStepKeepsRingInvariant : Obligations.RingStepKeepsRingInvariant := by
  intro r h
  cases hv : r.verdict with
  | some v => rwa [Ring.step_of_done hv]
  | none =>
    cases hm : r.machines[r.turn]? with
    | none => rw [Ring.step_of_end hv hm]; exact h.endRound hv hm
    | some m =>
      cases hh : isHalted m with
      | true => rw [Ring.step_of_halted hv hm hh]; exact h.pass_of_stuck hv hm (.inl hh)
      | false =>
        obtain ⟨t, ht⟩ := step_answers m
        rw [Ring.step_of_live hv hm hh ht]
        exact h.afterStep hv hm ht

end Sys2Proof.Machine

/-! # Ring construction (O45, O50)

A ring that is constructed has a load behind it and a feed for each value, each of which succeeds exactly where its integers
are in range; `ringStart_eq_ok` says so once, and both directions are used. -/

namespace Sys2Proof.Machine

theorem load_eq_ok {model : IntModel} {program : List Int} {s : State} :
    load model program = .ok s ↔ (∀ v ∈ program, InRange model v) ∧
      s = { State.resetUnder model with mem := Memory.writeList [] 0 program } := by
  rcases load_cases model program with ⟨v, hv, hr, h⟩ | ⟨hfit, h⟩
  · rw [h]
    exact ⟨nofun, fun ⟨hfit, _⟩ => absurd (hfit v hv) hr⟩
  · rw [h, Except.ok.injEq]
    exact ⟨fun hs => ⟨hfit, hs.symm⟩, fun ⟨_, hs⟩ => hs.symm⟩

theorem load_intModel {model : IntModel} {program : List Int} {s : State} (h : load model program = .ok s) :
    s.intModel = model := by
  obtain ⟨-, rfl⟩ := load_eq_ok.mp h
  rfl

theorem feed_eq_ok {s t : State} {vs : List Int} :
    feed s vs = .ok t ↔ (∀ v ∈ vs, InRange s.intModel v) ∧ t = { s with inq := s.inq ++ vs } := by
  rcases feed_cases s vs with ⟨v, hv, hr, h⟩ | ⟨hfit, h⟩
  · rw [h]
    exact ⟨nofun, fun ⟨hfit, _⟩ => absurd (hfit v hv) hr⟩
  · rw [h, Except.ok.injEq]
    exact ⟨fun ht => ⟨hfit, ht.symm⟩, fun ⟨_, ht⟩ => ht.symm⟩

/-- A machine just loaded, with its phase and the values fed after it (R122). -/
def State.phased (s0 : State) (phase : Int) (signal : List Int) : State := { s0 with inq := phase :: signal }

/-- The ring of R122 at the start of its first round, made from the machine `s0` that the program loads to. -/
def Ring.initial (s0 : State) (phase : Int) (phases : List Int) (signal : Int) : Ring where
  machines := s0.phased phase [signal] :: phases.map (s0.phased · [])
  turn := 0
  round := 1
  progress := false
  verdict := none

section Construction
variable {model : IntModel} {program phases : List Int} {phase signal : Int} {s0 m : State} {ms : List State}

theorem ringMachine_eq_ok (hload : load model program = .ok s0) :
    ringMachine model program phase = .ok m ↔ InRange model phase ∧ m = s0.phased phase [] := by
  obtain ⟨-, rfl⟩ := load_eq_ok.mp hload
  rw [ringMachine, hload, ok_bind, feed_eq_ok, List.forall_mem_singleton]
  rfl

theorem ringMachines_eq_ok (hload : load model program = .ok s0) :
    ringMachines model program phases = .ok ms ↔
      (∀ v ∈ phases, InRange model v) ∧ ms = phases.map (s0.phased · []) := by
  induction phases generalizing ms with
  | nil => simp [ringMachines, eq_comm]
  | cons phase phases ih =>
    simp only [ringMachines, bind_eq_ok, ringMachine_eq_ok hload, ih, List.forall_mem_cons, List.map_cons]
    constructor
    · rintro ⟨_, ⟨hp, rfl⟩, _, ⟨hps, rfl⟩, h⟩
      cases h
      exact ⟨⟨hp, hps⟩, rfl⟩
    · rintro ⟨⟨hp, hps⟩, rfl⟩
      exact ⟨_, ⟨hp, rfl⟩, _, ⟨hps, rfl⟩, rfl⟩

theorem ringStart_nil (model : IntModel) (program : List Int) (signal : Int) :
    ringStart model program [] signal = .error .emptyRing := rfl

/-- With at least one phase and a program that loads, a ring is made exactly where its phases and its signal are in
range. -/
theorem ringStart_cons_eq_ok {r : Ring} (hload : load model program = .ok s0) :
    ringStart model program (phase :: phases) signal = .ok r ↔
      (∀ v ∈ phase :: phases, InRange model v) ∧ InRange model signal ∧ r = .initial s0 phase phases signal := by
  have signalFed : ∀ t, feed (s0.phased phase []) [signal] = .ok t ↔
      InRange model signal ∧ t = s0.phased phase [signal] := fun t => by
    rw [feed_eq_ok, List.forall_mem_singleton, ← load_intModel hload]
    rfl
  simp only [ringStart, bind_eq_ok, ringMachines_eq_ok hload]
  constructor
  · rintro ⟨_, ⟨hps, rfl⟩, h⟩
    obtain ⟨m0, hm0, hr⟩ := bind_eq_ok.mp h
    obtain ⟨hsig, rfl⟩ := (signalFed m0).mp hm0
    cases hr
    exact ⟨hps, hsig, rfl⟩
  · rintro ⟨hps, hsig, rfl⟩
    exact ⟨_, ⟨hps, rfl⟩, bind_eq_ok.mpr ⟨_, (signalFed _).mpr ⟨hsig, rfl⟩, rfl⟩⟩

/-- No ring is made of a program that does not load. -/
theorem load_of_ringStart {r : Ring} (h : ringStart model program (phase :: phases) signal = .ok r) :
    ∃ s0, load model program = .ok s0 := by
  cases hload : load model program with
  | ok s0 => exact ⟨s0, rfl⟩
  | error e => simp [ringStart, ringMachines, ringMachine, hload] at h

theorem initial_getElem? {i : Nat} {p : Int} (h : (phase :: phases)[i]? = some p) :
    (Ring.initial s0 phase phases signal).machines[i]? = some (s0.phased p (if i = 0 then [signal] else [])) := by
  cases i with
  | zero => cases h; rfl
  | succ i => simpa [Ring.initial] using ⟨p, h, rfl⟩

/-- A ring as constructed meets the invariant: no turn has passed, and each machine is a load with values in range. -/
theorem initial_inv (hs : s0.Inv) (hps : ∀ v ∈ phase :: phases, InRange s0.intModel v) (hsig : InRange s0.intModel signal) :
    (Ring.initial s0 phase phases signal).Inv := by
  obtain ⟨hp, hps⟩ := List.forall_mem_cons.mp hps
  have under : MachinesUnder s0.intModel (Ring.initial s0 phase phases signal).machines := by
    refine List.forall_mem_cons.mpr ⟨⟨hs.setInq (by simp [hp, hsig]), rfl⟩, fun m hm => ?_⟩
    obtain ⟨p, hmem, rfl⟩ := List.mem_map.mp hm
    exact ⟨hs.setInq (by simp [hps p hmem]), rfl⟩
  exact .of_running under (List.cons_ne_nil _ _) (Nat.zero_le _) rfl fun _ j _ hj => absurd hj (Nat.not_lt_zero j)

end Construction

/-- Settles O45: the ring is `Ring.initial`, by `ringStart_cons_eq_ok`. -/
theorem ringConstruction : Obligations.RingConstruction := by
  intro model program phases signal s0 hload hne hps hsig
  obtain ⟨phase, phases, rfl⟩ := List.exists_cons_of_ne_nil hne
  exact ⟨_, (ringStart_cons_eq_ok hload).mpr ⟨hps, hsig, rfl⟩, rfl, rfl, rfl, rfl, by simp [Ring.initial],
    fun i p hi => initial_getElem? hi⟩

/-- Settles O50: a ring that is made is `Ring.initial` of a program that loads. -/
theorem ringStartMeetsRingInvariant : Obligations.RingStartMeetsRingInvariant := by
  refine ⟨fun model program phases signal r hlen h => ?_, ringStart_nil⟩
  cases phases with
  | nil => cases h
  | cons phase phases =>
    obtain ⟨s0, hload⟩ := load_of_ringStart h
    obtain ⟨hps, hsig, rfl⟩ := (ringStart_cons_eq_ok hload).mp h
    obtain rfl : s0.intModel = model := load_intModel hload
    exact initial_inv (load_inv hlen hload) hps hsig

end Sys2Proof.Machine

/-! # The routing of an output (O52)

The value is the last of the output buffer, so it is in the range of the ring's one model and no feed of it is refused. -/

namespace Sys2Proof.Machine

/-- The value of an output is one of the machine's own (R94), so it is in range (R5). -/
theorem output_inRange {t : State} {v : Int} (h : t.Inv) (hr : report t = .output (some v)) : InRange t.intModel v := by
  obtain ⟨-, -, -, -, hout⟩ := State.allFit_eq_true_iff.mp h.inRange
  have last : t.outbuf.getLast? = some v := by
    rw [report_of_suspended (status_of_report_output hr)] at hr
    exact StepResult.output.inj hr
  exact hout v (List.mem_of_getLast? last)

/-- With more than one machine the successor is another machine (R124). -/
theorem succ_mod_ne {i n : Nat} (hi : i < n) (hn : 1 < n) : (i + 1) % n ≠ i := fun h =>
  absurd (eq_one_of_eq_succ_mod hi h.symm) (Nat.ne_of_gt hn)

section Output
variable {r : Ring} {m t : State} {v : Int} (hv : r.verdict = none) (hm : r.machines[r.turn]? = some m)
  (hh : isHalted m = false) (ht : Sys2Proof.Machine.step m = .next t)
  (hr : report t = .output (some v))
include hm ht hr

/-- No machine of the ring refuses the value, since all have the model under which it was computed (R88, R122). -/
theorem Ring.Inv.afterFeed_output (h : r.Inv) {x : State} (hx : x.intModel = m.intModel) :
    afterFeed x [v] = { x with inq := x.inq ++ [v] } := by
  have out : InRange t.intModel v := output_inRange (step_inv (h.machinesInv m (List.mem_of_getElem? hm)) ht) hr
  rw [step_intModel ht, ← hx] at out
  exact afterFeed_of_inRange (List.forall_mem_singleton.mpr out)

include hv hh

theorem Ring.step_machines_of_output : r.step.machines = ((r.place t).route [v]).machines := by
  rw [Ring.step_of_live hv hm hh ht, hr]; rfl

/-- After an output the successor is fed, and else the machine that stepped is back at its place (R123, R124). -/
theorem Ring.step_getElem?_of_output (k : Nat) :
    r.step.machines[k]? =
      if (r.turn + 1) % r.machines.length = k then (r.place t).machines[k]?.map (afterFeed · [v])
      else (r.place t).machines[k]? := by
  rw [Ring.step_machines_of_output hv hm hh ht hr, Ring.route_getElem?, Ring.place_machines, List.length_set,
    Ring.place_turn]

theorem Ring.step_machines_of_output_alone (h : r.Inv) (hone : r.machines.length = 1) :
    r.step.machines = [{ t with inq := t.inq ++ [v] }] := by
  obtain ⟨hlt, -⟩ := List.getElem?_eq_some_iff.mp hm
  obtain ⟨x, hx⟩ := List.length_eq_one_iff.mp hone
  have first : r.turn = 0 := by omega
  rw [Ring.step_machines_of_output hv hm hh ht hr, ← h.afterFeed_output hm ht hr (step_intModel ht)]
  simp [Ring.route, hx, first]

end Output

/-- Settles O52: by `Ring.step_getElem?_of_output` at the successor, at the turn and elsewhere; the feed is not refused. -/
theorem ringRoutesEveryOutput : Obligations.RingRoutesEveryOutput := by
  intro r m t v h hv hm hh ht hr
  refine ⟨Ring.step_machines_of_output_alone hv hm hh ht hr h, fun hmany => ?_⟩
  have after := Ring.step_getElem?_of_output hv hm hh ht hr
  obtain ⟨hlt, -⟩ := List.getElem?_eq_some_iff.mp hm
  have hne := succ_mod_ne hlt hmany
  have hsucc : (r.turn + 1) % r.machines.length < r.machines.length := Nat.mod_lt _ (Nat.zero_lt_of_lt hlt)
  generalize (r.turn + 1) % r.machines.length = j at after hne hsucc
  obtain ⟨succ, hj⟩ : ∃ succ, r.machines[j]? = some succ := ⟨_, List.getElem?_eq_getElem hsucc⟩
  refine ⟨j, succ, rfl, hj, ?successor, ?stepped, fun k hturn hother => ?others⟩
  case successor =>
    have oneModel := h.oneModel succ (List.mem_of_getElem? hj) m (List.mem_of_getElem? hm)
    rw [after, if_pos rfl, Ring.place_getElem?_of_ne hne, hj, Option.map_some, h.afterFeed_output hm ht hr oneModel]
  case stepped => rw [after, if_neg hne, Ring.place_getElem?_turn hm]
  case others => rw [after, if_neg hother.symm, Ring.place_getElem?_of_ne hturn]

end Sys2Proof.Machine
